-- ==== Sys2Proof/Word.lean ====
section
/-! DEFINITION. The two word types of the spec (00_scope.md R13). -/

namespace Sys2Proof

/-- A byte, `u8` (00_scope.md R13). -/
abbrev Byte := BitVec 8

/-- A `u16` (00_scope.md R13): a command word, an accumulator, a two-byte field of the frame. -/
abbrev U16 := BitVec 16

end Sys2Proof
end

