-- ==== Sys2Proof/Syntax.lean ====
section
/-! DEFINITION. The commands (30_encoding.md part B) and the operands that travel beside the command
word (30_encoding.md R83). -/

namespace Sys2Proof

/-- One constructor per row of the opcode map (30_encoding.md R85). Format `B` commands carry their
byte operand (R82); format `Z` commands carry nothing (R81). -/
inductive Instr where
  /-- `CRC.RESET` (40_crc16.md R100). -/
  | crcReset
  /-- `CRC.STEP b` (40_crc16.md R101). -/
  | crcStep (b : Byte)
  /-- `CRC.READ` (40_crc16.md R102). -/
  | crcRead
  /-- `ENC` (41_encode.md R118). -/
  | enc
  /-- `ENCD` (41_encode.md R119). -/
  | encd
  /-- `DEC` (42_decode.md R126). -/
  | dec
  /-- `SD.RESET` (43_streaming.md R142). -/
  | sdReset
  /-- `SD.STEP b` (43_streaming.md R143). -/
  | sdStep (b : Byte)
  deriving DecidableEq, Repr

/-- The message descriptor `MD`, the operand of `ENC` and `ENCD` (10_state.md R38). -/
structure Descriptor where
  id : List Byte
  payload : List Byte
  type : Byte
  internal : Bool
  query : Bool
  /-- Whether an offset is present. -/
  offp : Bool
  /-- Read only when `offp` holds. -/
  offset : U16
  /-- Not transmitted (30_encoding.md R72). -/
  ack : Bool
  ackNum : Byte
  deriving DecidableEq, Repr

/-- The operands beside the command word (30_encoding.md R83): the descriptor of `ENC` and `ENCD`,
the byte list `B` of `DEC`, the time value `NOW` of `DEC` and `SD.STEP` (10_state.md R41). `NOW` is
a number: its width `W_TS` is OPEN (log 5). -/
structure Operands where
  md : Descriptor
  buf : List Byte
  now : Nat
  deriving DecidableEq, Repr

/-- A command as the host issues it: the word (30_encoding.md R80) and the operands beside it. -/
structure Command where
  word : U16
  ops : Operands
  deriving DecidableEq, Repr

/-- What the host does to the block: issue a command, or assert the reset input
(70_reset_and_hazards.md R195). -/
inductive Request where
  | command (c : Command)
  | reset
  deriving DecidableEq, Repr

end Sys2Proof
end

