-- ==== Sys2Proof/Config.lean ====
section
/-! DEFINITION. The parameters the spec leaves OPEN (00_scope.md R11; 92_eei_decisions.md, last
table). `DELIM` is not here: it is a field of the state that no step writes (log 1). -/

namespace Sys2Proof

/-- The capacities and the width that an instance fixes: an argument of the well-formedness of a
command, read by no step (logs 5 and 6). -/
structure Params where
  /-- `W_TS`, the width in bits of `NOW`. -/
  wTs : Nat
  /-- `ID_IN_MAX`, the capacity of the encoder's messageID operand. -/
  idInMax : Nat
  /-- `PAY_IN_MAX`, the capacity of the encoder's payload operand. -/
  payInMax : Nat
  /-- `DEC_IN_MAX`, the capacity of the one-shot decoder's input. -/
  decInMax : Nat
  deriving DecidableEq, Repr

/-- The constraints on the OPEN parameters (92_eei_decisions.md, last table). -/
def Params.ok (p : Params) : Bool :=
  1 ≤ p.wTs && 16 ≤ p.idInMax && 1024 ≤ p.payInMax && 1046 ≤ p.decInMax

/-- The defaults of 00_scope.md R11. -/
def Params.default : Params := ⟨64, 255, 65535, 65535⟩

end Sys2Proof
end

