-- ==== Sys2Proof/WellFormed.lean ====
section
/-! DEFINITION. Which instructions, operands and descriptors are well formed. -/

namespace Sys2Proof

/-- Well-formed instructions. The byte operand of a format `B` command may have any of its 256 values
(30_encoding.md R82) and a format `Z` command has no operand (R81), so no value is refused. -/
def Instr.wf : Instr → Bool
  | .crcReset => true
  | .crcStep _ => true
  | .crcRead => true
  | .enc => true
  | .encd => true
  | .dec => true
  | .sdReset => true
  | .sdStep _ => true

/-- The operands fit the capacities of the instance (10_state.md R38, R41; 42_decode.md R126). -/
def Operands.wf (p : Params) (o : Operands) : Bool :=
  o.md.id.length ≤ p.idInMax && o.md.payload.length ≤ p.payInMax &&
    o.buf.length ≤ p.decInMax && o.now < 2 ^ p.wTs

/-- A command a host that keeps to its operand capacities may issue. Every word may be issued; a
reserved one is answered with `IllegalCommand` (30_encoding.md R87). -/
def Command.wf (p : Params) (c : Command) : Bool := c.ops.wf p

/-- A descriptor that `ENC` accepts: none of the six conditions of 41_encode.md R112 fails. -/
abbrev Descriptor.Encodable (md : Descriptor) : Prop :=
  md.type.toNat ≤ 15 ∧ 1 ≤ md.id.length ∧ md.id.length ≤ 15 ∧ md.payload.length ≤ 1023 ∧
    md.ackNum.toNat ≤ 7 ∧ (0 < md.ackNum.toNat → md.ack = true)

/-- A descriptor is consistent when `ack = (ackNum != 0)` (42_decode.md R133). -/
abbrev Descriptor.Consistent (md : Descriptor) : Prop :=
  md.ack = decide (md.ackNum ≠ 0)

end Sys2Proof
end

