-- ==== Sys2Proof/Decode.lean ====
section
/-! DEFINITION. The command word (30_encoding.md part B): its decoder, total on every word and
rejecting by name, and its encoder. -/

namespace Sys2Proof

/-- Why a word is no command. -/
inductive DecodeError where
  /-- The opcode is one of the 248 reserved ones (30_encoding.md R87). -/
  | reservedOpcode (op : Byte)
  deriving DecidableEq, Repr

/-- `cw[15:8]`, the opcode (30_encoding.md R80). -/
def opcodeOf (cw : U16) : Byte := cw.extractLsb' 8 8

/-- `cw[7:0]`, the byte operand (30_encoding.md R80). -/
def imm8Of (cw : U16) : Byte := cw.extractLsb' 0 8

/-- The opcode map (30_encoding.md R85); `imm8` is ignored in format `Z` (R81); a reserved opcode is
rejected by name (R87). -/
def decode (cw : U16) : Except DecodeError Instr :=
  let op := opcodeOf cw
  if op = 0x00#8 then .ok .crcReset
  else if op = 0x01#8 then .ok (.crcStep (imm8Of cw))
  else if op = 0x02#8 then .ok .crcRead
  else if op = 0x10#8 then .ok .enc
  else if op = 0x11#8 then .ok .encd
  else if op = 0x12#8 then .ok .dec
  else if op = 0x20#8 then .ok .sdReset
  else if op = 0x21#8 then .ok (.sdStep (imm8Of cw))
  else .error (.reservedOpcode op)

/-- The word with an opcode and a byte operand: `op << 8 | imm8` (30_encoding.md R81, R82). -/
def wordOf (op imm8 : Byte) : U16 := op.setWidth 16 <<< 8 ||| imm8.setWidth 16

/-- The opcode of each command (30_encoding.md R85). -/
def opcodeByte : Instr → Byte
  | .crcReset => 0x00#8
  | .crcStep _ => 0x01#8
  | .crcRead => 0x02#8
  | .enc => 0x10#8
  | .encd => 0x11#8
  | .dec => 0x12#8
  | .sdReset => 0x20#8
  | .sdStep _ => 0x21#8

/-- The byte operand of each command; the canonical `imm8` of format `Z` is 0x00 (30_encoding.md
R81). -/
def operandByte : Instr → Byte
  | .crcReset => 0x00#8
  | .crcStep b => b
  | .crcRead => 0x00#8
  | .enc => 0x00#8
  | .encd => 0x00#8
  | .dec => 0x00#8
  | .sdReset => 0x00#8
  | .sdStep b => b

/-- The canonical word of a command. -/
def encode (i : Instr) : U16 := wordOf (opcodeByte i) (operandByte i)

/-- Whether a command has format `Z` (30_encoding.md R81). -/
def hasFormatZ : Instr → Bool
  | .crcStep _ => false
  | .sdStep _ => false
  | .crcReset => true
  | .crcRead => true
  | .enc => true
  | .encd => true
  | .dec => true
  | .sdReset => true

/-- The instruction the decoder reads from a table row's bits. A command word is one 16-bit value and
is stored in no memory (20_memory.md R61; 30_encoding.md R84), so there are no bytes to lay out
(log 15). -/
def decodeTableWord (nbits w : Nat) : Option Instr :=
  if nbits ≤ 16 then
    match decode (BitVec.ofNat 16 (w % 2 ^ nbits)) with
    | .ok i => some i
    | .error _ => none
  else none

end Sys2Proof
end

