-- ==== Sys2Proof/Machine/Constants.lean ====
section
/-! DEFINITION. The constants of the parameter table (00_scope.md R11). They stand here, under
Machine/, so that a later repair can mend one that a test shows wrong (log 10). -/

namespace Sys2Proof.Machine

/-- `CRC_POLY`: x^16 + x^12 + x^5 + 1, the x^16 term implied. Fitted by the spec to one example
(00_scope.md R12; log 10). -/
def crcPoly : U16 := 0x1021#16

/-- `CRC_SEED`. Fitted by the spec to one example (00_scope.md R12; log 10). -/
def crcSeed : U16 := 0xFFFF#16

/-- `SOH`, the start delimiter. -/
def soh : Byte := 0x01#8

/-- `EOT`, the end delimiter. -/
def eot : Byte := 0x04#8

/-- `MAX_TYPE`. -/
def maxType : Nat := 15

/-- `MIN_ID`. -/
def minId : Nat := 1

/-- `MAX_ID`. -/
def maxId : Nat := 15

/-- `MAX_PAYLOAD`. -/
def maxPayload : Nat := 1023

/-- `MAX_ACK_NUM`. -/
def maxAckNum : Nat := 7

/-- `MIN_FRAME`, in bytes. -/
def minFrame : Nat := 6

/-- `MAX_FRAME`, in bytes. -/
def maxFrame : Nat := 1045

end Sys2Proof.Machine
end

