-- ==== Sys2Proof/Machine/State.lean ====
section
/-! DEFINITION. The state of the block and of its interface to the host, as plain data, the reasons a
step can stop, and the machine after reset (10_state.md). -/

namespace Sys2Proof.Machine

/-- The seven states of the SD unit, in the order of their numbers 0 to 6 (10_state.md R26). The
register is 3 bits wide and never holds 7, so 7 has no name here (log 7). -/
inductive SdState where
  | idle
  | hdr
  | msgid
  | offset
  | payload
  | checksum
  | eot
  deriving DecidableEq, Repr

/-- The byte-addressed buffers of the SD unit (20_memory.md R45). -/
inductive Space where
  | hdr
  | id
  | off
  | pay
  deriving DecidableEq, Repr

/-- The contents of one byte space, each index one byte: the entries that differ from what an
unlisted index reads as, by rising index (log 8). -/
abbrev Memory := List Host.Cell

/-- The persistent state of the SD unit (10_state.md R26 to R33). -/
structure SdUnit where
  /-- `sd.state`, 3 bits (R26). -/
  state : SdState
  /-- `sd.cnt`, the bytes already taken in the current state (R27). -/
  cnt : BitVec 10
  /-- `sd.crc`, the running CRC (R28). -/
  crc : U16
  /-- `sd.hdr`, 3 bytes (R29). -/
  hdr : Memory
  /-- `sd.id`, 15 bytes (R30). -/
  id : Memory
  /-- `sd.off`, 2 bytes (R31). -/
  off : Memory
  /-- `sd.pay`, 1023 bytes (R32). -/
  pay : Memory
  /-- `sd.ck0`, the first checksum byte (R33). -/
  ck0 : Byte
  deriving DecidableEq, Repr

/-- The message record `MSG` (10_state.md R39). `offset` is `none` when absent. -/
structure Msg where
  id : List Byte
  payload : List Byte
  type : BitVec 4
  internal : Bool
  query : Bool
  offset : Option U16
  ack : Bool
  ackNum : BitVec 3
  timestamp : Nat
  deriving DecidableEq, Repr

/-- The field a `ValidationError` names (41_encode.md R112). -/
inductive MdField where
  | type
  | idLen
  | payLen
  | ackNum
  | ack
  deriving DecidableEq, Repr

/-- The error outcomes (60_exceptions.md R171). The block never returns `protocolLimit`,
`deliveryTimeout`, `send` or `cancelled`: their codes are held for the reliability layer (R177). -/
inductive BlockError where
  | validation (field : MdField) (bound : Nat)
  | checksum
  | length
  | framing
  | protocolLimit
  | deliveryTimeout
  | send
  | cancelled
  | illegalCommand
  deriving DecidableEq, Repr

/-- The response of a command (10_state.md R40). `stream` is the pair `(m, e)` of `SD.STEP`
(43_streaming.md R143). -/
inductive Response where
  | nothing
  | value (v : U16)
  | frame (bytes : List Byte)
  | message (m : Msg)
  | stream (m : Option Msg) (e : Option BlockError)
  | error (e : BlockError)
  deriving DecidableEq, Repr

/-- The whole machine: the block (10_state.md) and its interface to the host. -/
structure State where
  /-- `crc.acc`, the accumulator of the CRC16 unit (R23). -/
  crcAcc : U16
  /-- `DELIM`, fixed when the instance is made; no step writes it (00_scope.md R11; log 1). -/
  delim : Bool
  /-- The SD unit. -/
  sd : SdUnit
  /-- The operands beside the command word now at the block (30_encoding.md R83; log 3). -/
  ops : Operands
  /-- The host's requests not yet taken, oldest first (20_memory.md R58; log 2). -/
  pending : List Request
  /-- The responses given to the host, oldest first (20_memory.md R59). Outside the block, which
  latches no outcome (00_scope.md R16) and reads this nowhere (log 4). -/
  responses : List Response
  deriving DecidableEq, Repr

/-- Why a step stops with a fault. -/
inductive Fault where
  /-- Raised by `SD.STEP` when `sd.cnt` lies outside the buffer it would write: an index that does
  not exist (20_memory.md R56). Only states that no run from reset reaches have such a count
  (10_state.md R44). Safe: the machine stops. -/
  | outsideBuffer (sp : Space) (index : Nat)
  deriving DecidableEq, Repr

/-- Why a step gives no meaning. -/
inductive Refusal where
  /-- Raised by an arm of `exec` whose instruction has no meaning yet. Safe: the machine stops. -/
  | notModelled (mnemonic : String)
  deriving DecidableEq, Repr

/-- The SD unit as `sd_reset()` leaves it (10_state.md R34, R43). -/
def SdUnit.reset : SdUnit :=
  { state := .idle, cnt := 0, crc := crcSeed, hdr := [], id := [], off := [], pay := [], ck0 := 0 }

/-- Nothing beside the command word: the empty descriptor, the empty list, time 0 (log 3). -/
def noOperands : Operands :=
  { md := { id := [], payload := [], type := 0, internal := false, query := false, offp := false,
            offset := 0, ack := false, ackNum := 0 }
    buf := []
    now := 0 }

/-- The machine right after reset (70_reset_and_hazards.md R195; 10_state.md R43), for either value
of the OPEN parameter `DELIM`. -/
def State.resetFor (delim : Bool) : State :=
  { crcAcc := crcSeed, delim := delim, sd := SdUnit.reset, ops := noOperands, pending := [],
    responses := [] }

/-- The machine right after reset. The instance taken has `DELIM` = false: DESIGN CHOICE (log 1). -/
def State.reset : State := State.resetFor false

end Sys2Proof.Machine
end

