-- ==== Sys2Proof/Machine/Operands.lean ====
section
/-! DEFINITION. Byte order, the header bits and the frame layout: every form in which the commands
read their operands (00_scope.md R14, R15; 30_encoding.md part A; 20_memory.md R47 to R56). -/

namespace Sys2Proof.Machine

/-- `lo8(v) = v[7:0]` (00_scope.md R14). -/
def lo8 (v : U16) : Byte := v.extractLsb' 0 8

/-- `hi8(v) = v[15:8]` (00_scope.md R14). -/
def hi8 (v : U16) : Byte := v.extractLsb' 8 8

/-- `le16(lo, hi) = lo | (hi << 8)` (00_scope.md R14; 20_memory.md R47). -/
def le16 (lo hi : Byte) : U16 := lo.setWidth 16 ||| hi.setWidth 16 <<< 8

/-- A `u16` on the wire: low byte first (20_memory.md R47). -/
def le16Bytes (v : U16) : List Byte := [lo8 v, hi8 v]

/-- `B[i]`, one byte of an operand list (00_scope.md R15), for `i` below its length; every use is
behind a check of the length (20_memory.md R56). -/
def byteAt (l : List Byte) (i : Nat) : Byte := l.getD i 0

/-- `B[i .. i + n)` (00_scope.md R14). -/
def slice (l : List Byte) (i n : Nat) : List Byte := (l.drop i).take n

/-- The fields of the three header bytes (30_encoding.md R66, R67). -/
structure Header where
  /-- M, the payload length. -/
  payLen : BitVec 10
  type : BitVec 4
  internal : Bool
  offp : Bool
  /-- N, the messageID length. -/
  idLen : BitVec 4
  query : Bool
  ackNum : BitVec 3
  deriving DecidableEq, Repr

/-- Unpacking (30_encoding.md R75) of the header bytes, in wire order. -/
def headerOf (b0 b1 b2 : Byte) : Header :=
  let ph := le16 b0 b1
  { payLen := ph.extractLsb' 0 10, type := ph.extractLsb' 10 4, internal := ph.getLsbD 14,
    offp := ph.getLsbD 15, idLen := b2.extractLsb' 0 4, query := b2.getLsbD 4,
    ackNum := b2.extractLsb' 5 3 }

/-- A one-bit field as a number. -/
def bit (b : Bool) : Nat := if b then 1 else 0

/-- `ph = M | (type << 10) | (internal << 14) | (offp << 15)` (30_encoding.md R74). -/
def packPh (payLen : Nat) (type : Byte) (internal offp : Bool) : U16 :=
  BitVec.ofNat 16 payLen ||| type.setWidth 16 <<< 10 ||| BitVec.ofNat 16 (bit internal) <<< 14 |||
    BitVec.ofNat 16 (bit offp) <<< 15

/-- `mh = N | (query << 4) | (ackNum << 5)` (30_encoding.md R74). -/
def packMh (idLen : Nat) (query : Bool) (ackNum : Byte) : Byte :=
  BitVec.ofNat 8 idLen ||| BitVec.ofNat 8 (bit query) <<< 4 ||| ackNum <<< 5

/-- The length of a frame: `5 + N + 2 * offp + M` (30_encoding.md R68). -/
def frameLen (h : Header) : Nat := 5 + h.idLen.toNat + 2 * bit h.offp + h.payLen.toNat

/-- The first index of the payload in a frame: `3 + N + 2 * offp` (20_memory.md R54). -/
def payloadIndex (h : Header) : Nat := 3 + h.idLen.toNat + 2 * bit h.offp

/-- The message of a decoder, from the header and the bytes of the other fields (42_decode.md R126
step 8, R132, R133; 43_streaming.md R155). -/
def messageOf (h : Header) (id payload : List Byte) (offset : U16) (now : Nat) : Msg :=
  { id := id, payload := payload, type := h.type, internal := h.internal, query := h.query,
    offset := if h.offp then some offset else none, ack := h.ackNum != 0, ackNum := h.ackNum,
    timestamp := now }

/-- The descriptor that says what a message says (the converse half of 42_decode.md R135). -/
def descriptorOf (m : Msg) : Descriptor :=
  { id := m.id, payload := m.payload, type := m.type.setWidth 8, internal := m.internal,
    query := m.query, offp := m.offset.isSome, offset := m.offset.getD 0, ack := m.ack,
    ackNum := m.ackNum.setWidth 8 }

end Sys2Proof.Machine
end

