-- ==== Sys2Proof/Machine/Checksum.lean ====
section
/-! DEFINITION. The checksum function of every unit (40_crc16.md section 1; 10_state.md R25), in the
bit-serial form that defines it and in the two other forms the spec allows (R107). -/

namespace Sys2Proof.Machine

/-- One of the eight inner rounds of `crc_step` (40_crc16.md R96). -/
def crcRound (a : U16) : U16 := if a.getLsbD 15 then a <<< 1 ^^^ crcPoly else a <<< 1

/-- `n` inner rounds. -/
def crcRounds : Nat → U16 → U16
  | 0, a => a
  | n + 1, a => crcRounds n (crcRound a)

/-- `crc_step(acc, b)` (40_crc16.md R96). -/
def crcStep (acc : U16) (b : Byte) : U16 := crcRounds 8 (acc ^^^ b.setWidth 16 <<< 8)

/-- `crc16_from(acc, l)` (40_crc16.md R97). -/
def crc16From (acc : U16) : List Byte → U16
  | [] => acc
  | b :: l => crc16From (crcStep acc b) l

/-- `crc16(l)`: from the seed, without a final xor (40_crc16.md R97). -/
def crc16 (l : List Byte) : U16 := crc16From crcSeed l

/-- `T[i]` of the table-driven form (40_crc16.md R98). -/
def crcTable (i : Byte) : U16 := crc16From 0 [i]

/-- The table-driven form of `crc_step` (40_crc16.md R98). -/
def crcStepByTable (acc : U16) (b : Byte) : U16 := acc <<< 8 ^^^ crcTable (hi8 acc ^^^ b)

/-- The shift-and-xor form of `crc_step` (40_crc16.md R99). -/
def crcStepByShifts (acc : U16) (b : Byte) : U16 :=
  let c := acc >>> 8 ||| acc <<< 8
  let c := c ^^^ b.setWidth 16
  let c := c ^^^ (c &&& 0x00FF#16) >>> 4
  let c := c ^^^ c <<< 12
  c ^^^ (c &&& 0x00FF#16) <<< 5

end Sys2Proof.Machine
end

