-- ==== Sys2Proof/Machine/Ops.lean ====
section
/-! DEFINITION. The shared operations: the byte buffers, the response of a command, an error outcome
(the spec's "trap entry", 60_exceptions.md R180), the resets, and taking the host's next request. -/

namespace Sys2Proof.Machine

/-! ### Byte spaces -/

/-- What an index with no entry reads as: the value `sd_reset()` gives every buffer byte
(10_state.md R34, R43). -/
def Memory.blank : Byte := 0x00#8

/-- The byte at an index. -/
def Memory.read : Memory → Nat → Byte
  | [], _ => Memory.blank
  | (a, v) :: m, i => if i = a then v else Memory.read m i

/-- Write one byte, keeping the entries sorted and none equal to `Memory.blank`. -/
def Memory.write : Memory → Nat → Byte → Memory
  | [], i, b => if b = Memory.blank then [] else [(i, b)]
  | (a, v) :: m, i, b =>
    if i < a then (if b = Memory.blank then (a, v) :: m else (i, b) :: (a, v) :: m)
    else if i = a then (if b = Memory.blank then m else (i, b) :: m)
    else (a, v) :: Memory.write m i b

/-- The canonical form: indices strictly rising, no entry equal to what an unlisted index reads
as. -/
abbrev Memory.wf (m : Memory) : Prop :=
  m.Pairwise (fun c d => c.1 < d.1) ∧ ∀ c ∈ m, c.2 ≠ Memory.blank

/-- `n` bytes from index `i` on, in index order. -/
def Memory.bytes (m : Memory) (i n : Nat) : List Byte :=
  (List.range n).map (fun k => m.read (i + k))

/-- The size of each buffer in bytes (20_memory.md R45). -/
def Space.size : Space → Nat
  | .hdr => 3
  | .id => 15
  | .off => 2
  | .pay => 1023

/-- The contents of a buffer of the SD unit. -/
def SdUnit.mem (u : SdUnit) : Space → Memory
  | .hdr => u.hdr
  | .id => u.id
  | .off => u.off
  | .pay => u.pay

/-- Replace the contents of a buffer of the SD unit. -/
def SdUnit.setMem (u : SdUnit) (sp : Space) (m : Memory) : SdUnit :=
  match sp with
  | .hdr => { u with hdr := m }
  | .id => { u with id := m }
  | .off => { u with off := m }
  | .pay => { u with pay := m }

/-- `MemRead(B, i, 1)` on a buffer (00_scope.md R15). -/
def SdUnit.load (u : SdUnit) (sp : Space) (i : Nat) : Byte := (u.mem sp).read i

/-- `MemWrite(B, i, 1, b)` on a buffer (00_scope.md R15): an index outside it does not exist
(20_memory.md R56; log 9). -/
def SdUnit.store (u : SdUnit) (sp : Space) (i : Nat) (b : Byte) : Except Fault SdUnit :=
  if i < sp.size then .ok (u.setMem sp ((u.mem sp).write i b)) else .error (.outsideBuffer sp i)

/-! ### Responses, errors, resets -/

/-- The block's answer to a command (00_scope.md R16). -/
def State.respond (s : State) (r : Response) : State := { s with responses := s.responses ++ [r] }

/-- An error outcome (60_exceptions.md R180): nothing is saved, no mode changes, control goes
nowhere; the error is the response. There is no return from it to model: the next command is taken
as usual (R181). `SD.STEP`, whose errors also reset the unit, gives its error in the error part of its
own response (43_streaming.md R143). -/
def State.raise (s : State) (e : BlockError) : State := s.respond (.error e)

/-- Success carries a response, failure an error. -/
def State.conclude (s : State) : Except BlockError Response → State
  | .ok r => s.respond r
  | .error e => s.raise e

/-- A word that is no command: `IllegalCommand`, no state changed (30_encoding.md R87;
60_exceptions.md R176; log 11). -/
def State.rejectWord (s : State) : DecodeError → State
  | .reservedOpcode _ => s.raise .illegalCommand

/-- `sd_reset()` (10_state.md R34). -/
def sdReset (_ : SdUnit) : SdUnit := SdUnit.reset

/-- Hardware reset (70_reset_and_hazards.md R195): both units; `DELIM` stays (R198). It is no command
and gives no response (log 12). -/
def State.hardwareReset (s : State) : State :=
  { s with crcAcc := crcSeed, sd := sdReset s.sd }

/-! ### The host's next request -/

/-- Take the oldest request; a command brings its operands with it (30_encoding.md R83; 20_memory.md
R58). `none` when the host has issued nothing. -/
def State.fetch (s : State) : Option (Request × State) :=
  match s.pending with
  | [] => none
  | .reset :: rest => some (.reset, { s with pending := rest })
  | .command c :: rest => some (.command c, { s with pending := rest, ops := c.ops })

/-- The host issues one more command. -/
def State.issue (s : State) (c : Command) : State :=
  { s with pending := s.pending ++ [.command c] }

end Sys2Proof.Machine
end

