-- ==== Sys2Proof/Machine/Codec.lean ====
section
/-! DEFINITION. The commands of the CODEC unit: `ENC`, `ENCD` (41_encode.md) and `DEC`
(42_decode.md). They read the operands of the command and no state of the block, and write none
(10_state.md R42). -/

namespace Sys2Proof.Machine

/-! ### The encoder -/

/-- The six checks, in the order that decides which error is reported (41_encode.md R112;
60_exceptions.md R179). The ack policy is to reject (R113). -/
def validate (md : Descriptor) : Option BlockError :=
  if maxType < md.type.toNat then some (.validation .type maxType)
  else if md.id.length < minId then some (.validation .idLen minId)
  else if maxId < md.id.length then some (.validation .idLen maxId)
  else if maxPayload < md.payload.length then some (.validation .payLen maxPayload)
  else if maxAckNum < md.ackNum.toNat then some (.validation .ackNum maxAckNum)
  else if 0 < md.ackNum.toNat ∧ md.ack = false then some (.validation .ack 0)
  else none

/-- The offset field: two bytes when present, else nothing, and then `md.offset` is not read
(41_encode.md R115). -/
def offsetField (md : Descriptor) : List Byte := if md.offp then le16Bytes md.offset else []

/-- The body of a frame: everything before the checksum (41_encode.md R114, R115). -/
def frameBody (md : Descriptor) : List Byte :=
  le16Bytes (packPh md.payload.length md.type md.internal md.offp) ++
    [packMh md.id.length md.query md.ackNum] ++ md.id ++ offsetField md ++ md.payload

/-- A body followed by its checksum, low byte first (41_encode.md R116; 30_encoding.md R71). -/
def sealBody (body : List Byte) : List Byte := body ++ le16Bytes (crc16 body)

/-- `ENC` as a function (41_encode.md R118). -/
def encodeFrame (md : Descriptor) : Except BlockError (List Byte) :=
  match validate md with
  | some e => .error e
  | none => .ok (sealBody (frameBody md))

/-- The delimited form of a frame (30_encoding.md R76; 20_memory.md R55). -/
def wrapFrame (f : List Byte) : List Byte := [soh] ++ f ++ [eot]

/-- `ENCD` as a function (41_encode.md R119). -/
def encodeDelimited (md : Descriptor) : Except BlockError (List Byte) :=
  match encodeFrame md with
  | .error e => .error e
  | .ok f => .ok (wrapFrame f)

/-! ### The one-shot decoder -/

/-- The checksum received at the end of an input of at least two bytes (42_decode.md R128). -/
def receivedChecksum (l : List Byte) : U16 :=
  le16 (byteAt l (l.length - 2)) (byteAt l (l.length - 1))

/-- The checksum computed over an input less its last two bytes (42_decode.md R128). -/
def computedChecksum (l : List Byte) : U16 := crc16 (l.take (l.length - 2))

/-- The header at the start of an input (42_decode.md R129). -/
def headerAt (l : List Byte) : Header := headerOf (byteAt l 0) (byteAt l 1) (byteAt l 2)

/-- The fields at their places in a frame (42_decode.md R126 steps 7 and 8; 20_memory.md R54). -/
def extract (l : List Byte) (now : Nat) : Msg :=
  let h := headerAt l
  messageOf h (slice l 3 h.idLen.toNat) (slice l (payloadIndex h) h.payLen.toNat)
    (le16 (byteAt l (3 + h.idLen.toNat)) (byteAt l (4 + h.idLen.toNat))) now

/-- `DEC` as a function: the checks in the order of 42_decode.md R126. -/
def decodeFrame (l : List Byte) (now : Nat) : Except BlockError Msg :=
  if l.length < 2 then .error .length
  else if computedChecksum l ≠ receivedChecksum l then .error .checksum
  else if l.length < 5 then .error .length
  else if (headerAt l).idLen.toNat = 0 then .error .length
  else if l.length ≠ frameLen (headerAt l) then .error .length
  else .ok (extract l now)

/-! ### The meanings -/

/-- `ENC` (41_encode.md R118). -/
def execEnc (s : State) : Host.Outcome State Fault Refusal :=
  .next (s.conclude ((encodeFrame s.ops.md).map .frame))

/-- `ENCD` (41_encode.md R119). It does not read `DELIM`. -/
def execEncd (s : State) : Host.Outcome State Fault Refusal :=
  .next (s.conclude ((encodeDelimited s.ops.md).map .frame))

/-- `DEC` (42_decode.md R126). -/
def execDec (s : State) : Host.Outcome State Fault Refusal :=
  .next (s.conclude ((decodeFrame s.ops.buf s.ops.now).map .message))

end Sys2Proof.Machine
end

