-- ==== Sys2Proof/Machine/Crc16Unit.lean ====
section
/-! DEFINITION. The commands of the CRC16 unit (40_crc16.md section 2). -/

namespace Sys2Proof.Machine

/-- `CRC.RESET` (40_crc16.md R100). -/
def execCrcReset (s : State) : Host.Outcome State Fault Refusal :=
  .next ({ s with crcAcc := crcSeed }.respond .nothing)

/-- `CRC.STEP b` (40_crc16.md R101). -/
def execCrcStep (b : Byte) (s : State) : Host.Outcome State Fault Refusal :=
  .next ({ s with crcAcc := crcStep s.crcAcc b }.respond .nothing)

/-- `CRC.READ` (40_crc16.md R102). -/
def execCrcRead (s : State) : Host.Outcome State Fault Refusal :=
  .next (s.respond (.value s.crcAcc))

end Sys2Proof.Machine
end

