-- ==== Sys2Proof/Machine/Streaming.lean ====
section
/-! DEFINITION. The commands of the SD unit: `SD.RESET` and `SD.STEP` (43_streaming.md). Each state of
the unit has its own function, which gives the unit after the byte and the pair of optional message
and optional error (R143). Where a state cannot be reached with a count its rule does not foresee, the
rule's pseudocode is followed as written (log 9). -/

namespace Sys2Proof.Machine

/-- The response of a step of the unit: the produced message and the error (43_streaming.md R143). -/
abbrev StreamReply := Option Msg × Option BlockError

/-- What a step of the unit gives. -/
abbrev SdResult := Except Fault (SdUnit × StreamReply)

/-- The header fields, views of `sd.hdr` (10_state.md R29). -/
def SdUnit.header (u : SdUnit) : Header := headerOf (u.load .hdr 0) (u.load .hdr 1) (u.load .hdr 2)

/-- A step that reports nothing. -/
def quiet (u : SdUnit) : SdResult := .ok (u, none, none)

/-- A step that reports an error ends the frame attempt (43_streaming.md R156). -/
def sdError (u : SdUnit) (e : BlockError) : SdResult := .ok (sdReset u, none, some e)

/-- `sd_msg(NOW)` (43_streaming.md R155). -/
def sdMsg (u : SdUnit) (now : Nat) : Msg :=
  messageOf u.header (u.id.bytes 0 u.header.idLen.toNat) (u.pay.bytes 0 u.header.payLen.toNat)
    (le16 (u.load .off 0) (u.load .off 1)) now

/-- A step that emits the message, built before the unit is reset (43_streaming.md R155, R156). -/
def sdEmit (u : SdUnit) (now : Nat) : SdResult := .ok (sdReset u, some (sdMsg u now), none)

/-- Store the byte at `sd.cnt`, fold it, count it (43_streaming.md R147). -/
def takeByte (sp : Space) (b : Byte) (u : SdUnit) : Except Fault SdUnit :=
  match u.store sp u.cnt.toNat b with
  | .error f => .error f
  | .ok v => .ok { v with crc := crcStep v.crc b, cnt := v.cnt + 1 }

/-- Leave a state whose bytes have all been taken. -/
def enter (u : SdUnit) (st : SdState) : SdUnit := { u with cnt := 0, state := st }

/-- `after_offset()`: a payload of no bytes is skipped (43_streaming.md R148, R153). -/
def afterOffset (u : SdUnit) : SdState :=
  if 0 < u.header.payLen.toNat then .payload else .checksum

/-- State `IDLE` (43_streaming.md R144, R145). -/
def stepIdle (delim : Bool) (b : Byte) (u : SdUnit) : SdResult :=
  if delim then
    if b = soh then quiet { u with state := .hdr } else quiet u
  else
    match u.store .hdr 0 b with
    | .error f => .error f
    | .ok v => quiet { v with crc := crcStep v.crc b, cnt := 1, state := .hdr }

/-- State `HDR` (43_streaming.md R146, R154). -/
def stepHdr (b : Byte) (u : SdUnit) : SdResult :=
  match takeByte .hdr b u with
  | .error f => .error f
  | .ok v =>
    if v.cnt.toNat = 3 then
      if v.header.idLen.toNat = 0 then sdError v .length else quiet (enter v .msgid)
    else quiet v

/-- State `MSGID` (43_streaming.md R148). -/
def stepMsgid (b : Byte) (u : SdUnit) : SdResult :=
  match takeByte .id b u with
  | .error f => .error f
  | .ok v =>
    if v.cnt.toNat = v.header.idLen.toNat then
      quiet (enter v (if v.header.offp then .offset else afterOffset v))
    else quiet v

/-- State `OFFSET` (43_streaming.md R149). -/
def stepOffset (b : Byte) (u : SdUnit) : SdResult :=
  match takeByte .off b u with
  | .error f => .error f
  | .ok v => if v.cnt.toNat = 2 then quiet (enter v (afterOffset v)) else quiet v

/-- State `PAYLOAD` (43_streaming.md R150). -/
def stepPayload (b : Byte) (u : SdUnit) : SdResult :=
  match takeByte .pay b u with
  | .error f => .error f
  | .ok v => if v.cnt.toNat = v.header.payLen.toNat then quiet (enter v .checksum) else quiet v

/-- State `CHECKSUM` (43_streaming.md R151): the checksum bytes are not folded. -/
def stepChecksum (delim : Bool) (now : Nat) (b : Byte) (u : SdUnit) : SdResult :=
  if u.cnt.toNat = 0 then quiet { u with ck0 := b, cnt := 1 }
  else if le16 u.ck0 b ≠ u.crc then sdError u .checksum
  else if delim then quiet (enter u .eot)
  else sdEmit u now

/-- State `EOT` (43_streaming.md R152). -/
def stepEot (now : Nat) (b : Byte) (u : SdUnit) : SdResult :=
  if b = eot then sdEmit u now else sdError u .framing

/-- `SD.STEP` on the unit: by `sd.state` (43_streaming.md R143). -/
def sdStepUnit (delim : Bool) (now : Nat) (b : Byte) (u : SdUnit) : SdResult :=
  match u.state with
  | .idle => stepIdle delim b u
  | .hdr => stepHdr b u
  | .msgid => stepMsgid b u
  | .offset => stepOffset b u
  | .payload => stepPayload b u
  | .checksum => stepChecksum delim now b u
  | .eot => stepEot now b u

/-! ### The meanings -/

/-- `SD.RESET` (43_streaming.md R142). -/
def execSdReset (s : State) : Host.Outcome State Fault Refusal :=
  .next ({ s with sd := sdReset s.sd }.respond .nothing)

/-- `SD.STEP b` (43_streaming.md R143). -/
def execSdStep (b : Byte) (s : State) : Host.Outcome State Fault Refusal :=
  match sdStepUnit s.delim s.ops.now b s.sd with
  | .error f => .fault f
  | .ok (u, m, e) => .next ({ s with sd := u }.respond (.stream m e))

end Sys2Proof.Machine
end

