-- ==== Sys2Proof/Machine/Dispatch.lean ====
section
/-! DEFINITION. One arm per command of the opcode map (30_encoding.md R85). -/

namespace Sys2Proof.Machine

def exec (i : Instr) (s : State) : Host.Outcome State Fault Refusal :=
  match i with
  | .crcReset => Sys2Proof.Machine.execCrcReset s
  | .crcStep b => Sys2Proof.Machine.execCrcStep b s
  | .crcRead => Sys2Proof.Machine.execCrcRead s
  | .enc => Sys2Proof.Machine.execEnc s
  | .encd => Sys2Proof.Machine.execEncd s
  | .dec => Sys2Proof.Machine.execDec s
  | .sdReset => Sys2Proof.Machine.execSdReset s
  | .sdStep b => Sys2Proof.Machine.execSdStep b s

end Sys2Proof.Machine
end

