-- ==== Sys2Proof/Machine/Step.lean ====
section
/-! DEFINITION. One step: the block takes the host's next request (00_scope.md R8). -/

namespace Sys2Proof.Machine

/-- One step. With nothing requested the block waits (70_reset_and_hazards.md R195; log 13). -/
def step (s : State) : Host.Outcome State Fault Refusal :=
  match s.fetch with
  | none => .next s
  | some (.reset, t) => .next t.hardwareReset
  | some (.command c, t) =>
    match decode c.word with
    | .ok i => exec i t
    | .error e => .next (t.rejectWord e)

/-- The state in which the next request is the command with that word, beside the operands that
already stand at the block (log 2). -/
def State.withFetchWord (s : State) (nbits w : Nat) : State :=
  { s with pending := .command { word := BitVec.ofNat 16 (w % 2 ^ nbits), ops := s.ops } :: s.pending }

end Sys2Proof.Machine
end

