-- ==== Sys2Proof/Machine/Flags.lean ====
section
/-! DEFINITION. The block has no status flags, condition codes or sticky bits (10_state.md R36). The
only flag-like values are the two optional parts of an `SD.STEP` response and the error outcome of a
response: here they are read off a response, with the numbers of 60_exceptions.md R171. -/

namespace Sys2Proof.Machine

/-- The message a response delivers, if any. -/
def producedMessage : Response → Option Msg
  | .message m => some m
  | .stream m _ => m
  | .nothing => none
  | .value _ => none
  | .frame _ => none
  | .error _ => none

/-- The error a response reports, if any. -/
def reportedError : Response → Option BlockError
  | .error e => some e
  | .stream _ e => e
  | .nothing => none
  | .value _ => none
  | .frame _ => none
  | .message _ => none

/-- The number of an error (60_exceptions.md R171). -/
def errorCode : BlockError → Nat
  | .validation _ _ => 1
  | .checksum => 2
  | .length => 3
  | .framing => 4
  | .protocolLimit => 5
  | .deliveryTimeout => 6
  | .send => 7
  | .cancelled => 8
  | .illegalCommand => 15

/-- The code of a response: 0 is success (60_exceptions.md R171). -/
def responseCode (r : Response) : Nat :=
  match reportedError r with
  | some e => errorCode e
  | none => 0

/-- The number of a field in a `ValidationError` (41_encode.md R112). -/
def fieldNumber : MdField → Nat
  | .type => 1
  | .idLen => 2
  | .payLen => 3
  | .ackNum => 4
  | .ack => 5

/-- The number of a state of the SD unit (10_state.md R26). -/
def sdStateNumber : SdState → BitVec 3
  | .idle => 0
  | .hdr => 1
  | .msgid => 2
  | .offset => 3
  | .payload => 4
  | .checksum => 5
  | .eot => 6

end Sys2Proof.Machine
end

