-- ==== Sys2Proof/Safety.lean ====
section
/-! DEFINITION. What a good state of the machine is, and the runs and relations in which statements
about it are written. Nothing here is part of the machine: no step reads it. -/

namespace Sys2Proof.Machine

/-! ### The invariant -/

/-- A buffer in canonical form, with no byte outside its size (20_memory.md R45, R56). -/
abbrev BufferOk (sp : Space) (m : Memory) : Prop := m.wf ∧ ∀ c ∈ m, c.1 < sp.size

/-- The four buffers of the SD unit. -/
abbrev SdUnit.BuffersOk (u : SdUnit) : Prop :=
  BufferOk .hdr u.hdr ∧ BufferOk .id u.id ∧ BufferOk .off u.off ∧ BufferOk .pay u.pay

/-- The bytes of the offset field when the header says there is one. -/
def SdUnit.offsetTaken (u : SdUnit) : List Byte := if u.header.offp then u.off.bytes 0 2 else []

/-- The header, messageID, offset and payload bytes taken so far in the current frame attempt, in the
order they came (10_state.md R28, R44 (h)). -/
def SdUnit.taken (u : SdUnit) : List Byte :=
  let n := u.header.idLen.toNat
  let c := u.cnt.toNat
  match u.state with
  | .idle => []
  | .hdr => u.hdr.bytes 0 c
  | .msgid => u.hdr.bytes 0 3 ++ u.id.bytes 0 c
  | .offset => u.hdr.bytes 0 3 ++ u.id.bytes 0 n ++ u.off.bytes 0 c
  | .payload => u.hdr.bytes 0 3 ++ u.id.bytes 0 n ++ u.offsetTaken ++ u.pay.bytes 0 c
  | .checksum =>
    u.hdr.bytes 0 3 ++ u.id.bytes 0 n ++ u.offsetTaken ++ u.pay.bytes 0 u.header.payLen.toNat
  | .eot =>
    u.hdr.bytes 0 3 ++ u.id.bytes 0 n ++ u.offsetTaken ++ u.pay.bytes 0 u.header.payLen.toNat

/-- The states in which the header is complete (10_state.md R29). -/
abbrev SdUnit.HeaderComplete (u : SdUnit) : Prop := u.state ≠ .idle ∧ u.state ≠ .hdr

/-- The invariant of the SD unit, for the mode `delim`: clauses (a) to (h) of 10_state.md R44, the
canonical form of the buffers, and two facts the spec gives elsewhere. -/
structure SdUnit.Inv (delim : Bool) (u : SdUnit) : Prop where
  /-- The buffers are canonical and hold no byte outside their sizes. -/
  buffers : u.BuffersOk
  /-- (a), and more: `IDLE` is entered by `sd_reset()` alone (43_streaming.md R156). -/
  idle : u.state = .idle → u = SdUnit.reset
  /-- (b) -/
  hdr : u.state = .hdr → u.cnt.toNat ≤ 2 ∧ (delim = false → 1 ≤ u.cnt.toNat)
  /-- (c) -/
  msgid : u.state = .msgid → 1 ≤ u.header.idLen.toNat ∧ u.cnt.toNat < u.header.idLen.toNat
  /-- (d) -/
  offset : u.state = .offset → u.header.offp = true ∧ u.cnt.toNat ≤ 1
  /-- (e) -/
  payload : u.state = .payload → 1 ≤ u.header.payLen.toNat ∧ u.cnt.toNat < u.header.payLen.toNat
  /-- (f) -/
  checksum : u.state = .checksum → u.cnt.toNat ≤ 1
  /-- (g): the received low byte is that of the running CRC, and some high byte completes it. -/
  eot : u.state = .eot → delim = true ∧ u.cnt = 0 ∧ ∃ b : Byte, le16 u.ck0 b = u.crc
  /-- No frame with N = 0 gets past its header (43_streaming.md R146). -/
  named : u.HeaderComplete → 1 ≤ u.header.idLen.toNat
  /-- (h) -/
  folded : u.crc = crc16 u.taken

/-- The invariant of the machine. -/
abbrev State.Inv (s : State) : Prop := s.sd.Inv s.delim

/-! ### Runs -/

/-- `k` steps of the machine, stopping at the first fault or refusal. -/
def runSteps : Nat → State → Host.Outcome State Fault Refusal
  | 0, s => .next s
  | k + 1, s =>
    match step s with
    | .next t => runSteps k t
    | .fault f => .fault f
    | .refused r => .refused r

/-- The host issues these words and nothing else, each beside the operands that now stand at the
block. -/
def State.withWords (s : State) (ws : List U16) : State :=
  { s with pending := ws.map (fun w => .command ⟨w, s.ops⟩) }

/-- The host issues these commands and nothing else. -/
def State.withCommands (s : State) (cs : List Command) : State :=
  { s with pending := cs.map .command }

/-- The commands are `SD.FEED bs` (30_encoding.md R89), with any operands beside the words. -/
abbrev IsFeed (cs : List Command) (bs : List Byte) : Prop :=
  cs.map (fun c => c.word) = bs.map (fun b => encode (.sdStep b))

/-- The last command of a list comes with the time value `now`. -/
abbrev LastNow (cs : List Command) (now : Nat) : Prop :=
  cs.getLast?.map (fun c => c.ops.now) = some now

/-- The responses of a feed that reports nothing until its last byte and then delivers a message. -/
def feedResponses (n : Nat) (m : Msg) : List Response :=
  List.replicate (n - 1) (.stream none none) ++ [.stream (some m) none]

/-! ### Relations between a state and the next -/

/-- `t` is `s` with one more response and, at most, another SD unit. -/
abbrev OnlySdUnit (s t : State) (r : Response) : Prop :=
  t = { s with sd := t.sd, responses := s.responses ++ [r] }

/-- The unit stored `b` at `sd.cnt` of the buffer `sp`, folded it, and changed no other byte of any
buffer and no `sd.ck0` (43_streaming.md R147). -/
abbrev TookByte (u v : SdUnit) (sp : Space) (b : Byte) : Prop :=
  v.crc = crcStep u.crc b ∧ v.ck0 = u.ck0 ∧
    ∀ sp' i, v.load sp' i = if sp' = sp ∧ i = u.cnt.toNat then b else u.load sp' i

/-- Two units that agree on all they have written since their last `sd_reset()` (10_state.md R35);
the bytes not written may differ. -/
def SameSoFar (u v : SdUnit) : Prop :=
  u.state = v.state ∧ u.cnt = v.cnt ∧ u.crc = v.crc ∧ u.taken = v.taken ∧
    (u.state = .checksum → u.cnt ≠ 0 → u.ck0 = v.ck0)

/-- The bytes an attempt whose header is complete has still to take, if its checksum is good
(43_streaming.md R160). -/
def bytesLeft (delim : Bool) (u : SdUnit) : Nat :=
  let h := u.header
  let c := u.cnt.toNat
  let d := bit delim
  match u.state with
  | .idle => 0
  | .hdr => 0
  | .msgid => (h.idLen.toNat - c) + 2 * bit h.offp + h.payLen.toNat + 2 + d
  | .offset => (2 - c) + h.payLen.toNat + 2 + d
  | .payload => (h.payLen.toNat - c) + 2 + d
  | .checksum => (2 - c) + d
  | .eot => 1

end Sys2Proof.Machine
end

