-- ==== Sys2Proof/Certificates/Slice0/Obligations.lean ====
section
/-! DEFINITION. The statements for the provers.

Conventions of all of them. A response is told by the list `responses`, the model's own record of
what the host was answered (log 4): a command that answers `r` gives
`responses := s.responses ++ [r]`. What the host asks next stands in `pending`, and the operands of
the command being executed in `ops` (logs 2 and 3). An equation `exec i s = .next { s with … }` names
all that changes: every field not named, and so every byte of every buffer, is as before.

Rules R100, R101, R102, R118, R142, R145, R155 and R196 carry no mark of their own in the spec, but
some numbers in them are the spec's own choice, marked where it first states them: the opcodes
(92_eei_decisions.md D2), the constants of the CRC (D4; log 10), the ack policy (D6), the order and
the numbers of the checks (D8), the cleared buffers (D21), and `ack` = (ackNum ≠ 0), which it
derives (D7). -/

open Sys2Proof Sys2Proof.Machine

/-! ### The command word (30_encoding.md part B) -/

/-- Words written out from the opcode map, and reserved words. The opcode numbers are the spec's own
choice (92_eei_decisions.md D2, D3). -/
def Obligations.CommandWordsDecodeByTheOpcodeMap : Prop :=
  decode 0x0000#16 = .ok .crcReset ∧ decode 0x00A5#16 = .ok .crcReset ∧
  decode 0x012A#16 = .ok (.crcStep 0x2A#8) ∧ decode 0x02FF#16 = .ok .crcRead ∧
  decode 0x1000#16 = .ok .enc ∧ decode 0x1100#16 = .ok .encd ∧ decode 0x1200#16 = .ok .dec ∧
  decode 0x2001#16 = .ok .sdReset ∧ decode 0x2104#16 = .ok (.sdStep 0x04#8) ∧
  decode 0x0300#16 = .error (.reservedOpcode 0x03#8) ∧
  decode 0x1F21#16 = .error (.reservedOpcode 0x1F#8) ∧
  decode 0xFFFF#16 = .error (.reservedOpcode 0xFF#8)

/-- Decoding the canonical word of a command gives the command back. The words are the spec's own
choice (92_eei_decisions.md D2, D3). -/
def Obligations.EncodeThenDecodeGivesTheCommand : Prop :=
  ∀ i : Instr, i.wf = true → decode (encode i) = .ok i

/-- A word stands for a command exactly when its high byte is the command's opcode and, in format `B`,
its low byte is the operand; it is rejected exactly when its high byte is none of the eight opcodes.
The map is the spec's own choice (92_eei_decisions.md D2, D3). -/
def Obligations.DecodeReadsTheOpcodeAndTheOperandByte : Prop :=
  (∀ (op imm8 : Byte) (i : Instr), decode (wordOf op imm8) = .ok i ↔
    op = opcodeByte i ∧ (hasFormatZ i = false → imm8 = operandByte i)) ∧
  (∀ (op imm8 : Byte), decode (wordOf op imm8) = .error (.reservedOpcode op) ↔
    op ∉ [0x00#8, 0x01#8, 0x02#8, 0x10#8, 0x11#8, 0x12#8, 0x20#8, 0x21#8])

/-! ### One step -/

/-- When the next request is a command whose word decodes to `i`, the step is `exec i` in the state
that has taken the request and its operands; a word placed by `withFetchWord` runs in the state it was
placed in. The list of requests is the model's choice (log 2). -/
def Obligations.StepRunsTheDecodedCommand : Prop :=
  (∀ (s : State) (c : Command) (rest : List Request) (i : Instr),
    s.pending = .command c :: rest → decode c.word = .ok i → i.wf = true →
    step s = exec i { s with pending := rest, ops := c.ops }) ∧
  (∀ (s : State) (w : Nat) (i : Instr), decodeTableWord 16 w = some i →
    step (s.withFetchWord 16 w) = exec i s)

/-- A reserved word is answered with `IllegalCommand` and changes neither unit (the spec's own
decision, 92_eei_decisions.md D3). -/
def Obligations.StepAnswersReservedWordsWithIllegalCommand : Prop :=
  ∀ (s : State) (c : Command) (rest : List Request) (e : DecodeError),
    s.pending = .command c :: rest → decode c.word = .error e →
    step s = .next { s with pending := rest, ops := c.ops,
                            responses := s.responses ++ [.error .illegalCommand] }

/-- Hardware reset writes both units, leaves `DELIM` and gives no response (the spec's own decision,
92_eei_decisions.md D21; log 12); with nothing requested the block waits (log 13). -/
def Obligations.StepOnHardwareResetOrNothing : Prop :=
  (∀ (s : State) (rest : List Request), s.pending = .reset :: rest →
    step s = .next { s with pending := rest, crcAcc := 0xFFFF#16, sd := SdUnit.reset }) ∧
  (∀ s : State, s.pending = [] → step s = .next s)

/-- The values of the reset table, for either mode; every byte of every buffer reads 0x00 (the spec's
own decision, 92_eei_decisions.md D21). `State.reset` is this state for its own mode, whichever it is
(log 1). -/
def Obligations.ResetLeavesTheValuesOfTheResetTable : Prop :=
  (∀ d : Bool,
    (State.resetFor d).crcAcc = 0xFFFF#16 ∧ (State.resetFor d).delim = d ∧
    (State.resetFor d).sd.state = .idle ∧ (State.resetFor d).sd.cnt = 0 ∧
    (State.resetFor d).sd.crc = 0xFFFF#16 ∧ (State.resetFor d).sd.ck0 = 0x00#8 ∧
    ∀ sp i, (State.resetFor d).sd.load sp i = 0x00#8) ∧
  State.reset = State.resetFor State.reset.delim

/-! ### The CRC16 unit (40_crc16.md) -/

/-- R100: the words, the effect from any state, the response, that a second reset changes nothing
more, and the example. -/
def Obligations.CrcResetWritesTheSeed : Prop :=
  (∀ imm8 : Byte, decode (wordOf 0x00#8 imm8) = .ok .crcReset) ∧
  (∀ s : State, exec .crcReset s =
    .next { s with crcAcc := 0xFFFF#16, responses := s.responses ++ [.nothing] }) ∧
  (∀ s : State, ∃ t u, exec .crcReset s = .next t ∧ exec .crcReset t = .next u ∧
    u.crcAcc = t.crcAcc ∧ u.sd = t.sd) ∧
  (∀ s : State, ∃ t, exec .crcReset s = .next t ∧
    exec .crcRead t = .next { t with responses := t.responses ++ [.value 0xFFFF#16] })

/-- R101: the words, the effect from any state and for any byte, the response, and the corner cases:
the fixed points of the byte 0x00, the bijection for a fixed byte, the injection for a fixed
accumulator, and the two examples. -/
def Obligations.CrcStepFoldsOneByte : Prop :=
  (∀ b : Byte, decode (wordOf 0x01#8 b) = .ok (.crcStep b)) ∧
  (∀ (b : Byte) (s : State), exec (.crcStep b) s =
    .next { s with crcAcc := crcStep s.crcAcc b, responses := s.responses ++ [.nothing] }) ∧
  crcStep 0xFFFF#16 0x00#8 = 0xE1F0#16 ∧
  (∀ acc : U16, crcStep acc 0x00#8 = acc ↔ acc = 0x0000#16 ∨ acc = 0xF01F#16) ∧
  (∀ b : Byte, Function.Bijective (fun acc => crcStep acc b)) ∧
  (∀ acc : U16, Function.Injective (crcStep acc)) ∧
  crcStep 0xFFFF#16 0x01#8 = 0xF1D1#16

/-- R102: the words, the response and that nothing else changes, so that a second read answers the
same and a following step folds onto the same accumulator; and the example, from any state. -/
def Obligations.CrcReadReturnsTheAccumulator : Prop :=
  (∀ imm8 : Byte, decode (wordOf 0x02#8 imm8) = .ok .crcRead) ∧
  (∀ s : State, exec .crcRead s =
    .next { s with responses := s.responses ++ [.value s.crcAcc] }) ∧
  (∀ s : State, ∃ t u, exec .crcRead s = .next t ∧ exec .crcRead t = .next u ∧
    u.responses = s.responses ++ [.value s.crcAcc, .value s.crcAcc]) ∧
  (∀ (s : State) (b : Byte), ∃ t u, exec .crcRead s = .next t ∧ exec (.crcStep b) t = .next u ∧
    u.crcAcc = crcStep s.crcAcc b) ∧
  (∀ s : State, ∃ t, runSteps 9 (s.withWords [0x0000#16, 0x0101#16, 0x0114#16, 0x0103#16,
      0x0161#16, 0x0162#16, 0x0163#16, 0x012A#16, 0x0200#16]) = .next t ∧
    t.responses = s.responses ++ List.replicate 8 .nothing ++ [.value 0xBA64#16])

/-- The bit-serial definition, written with the constants in full, and the checksum as a fold from the
seed without a final xor. The constants are the spec's own fit to one example (92_eei_decisions.md D4;
log 10). -/
def Obligations.CrcStepIsEightShiftAndXorRounds : Prop :=
  (∀ (acc : U16) (b : Byte), crcStep acc b =
    (fun a : U16 => if a.getLsbD 15 then (a <<< 1) ^^^ 0x1021#16 else a <<< 1)^[8]
      (acc ^^^ (b.setWidth 16 <<< 8))) ∧
  (∀ l : List Byte, crc16 l = l.foldl crcStep 0xFFFF#16)

/-- The table-driven form is the same function (40_crc16.md section 1, a form the spec derives). -/
def Obligations.CrcTableFormIsCrcStep : Prop :=
  ∀ (acc : U16) (b : Byte), crcStepByTable acc b = crcStep acc b

/-- The shift-and-xor form is the same function (40_crc16.md section 1, a form the spec derives). -/
def Obligations.CrcShiftFormIsCrcStep : Prop :=
  ∀ (acc : U16) (b : Byte), crcStepByShifts acc b = crcStep acc b

/-- A checksum does not depend on how the bytes were grouped (40_crc16.md section 3, "Splitting", a
law the spec derives): over lists, and over `CRC.STEP` commands split by a `CRC.READ`. -/
def Obligations.ChecksumOfSplitLists : Prop :=
  (∀ (acc : U16) (l m : List Byte),
    crc16From acc (l ++ m) = crc16From (crc16From acc l) m) ∧
  (∀ (s : State) (l m : List Byte), ∃ t,
    runSteps (l.length + 1 + m.length) (s.withWords
      (l.map (fun b => encode (.crcStep b)) ++ [encode .crcRead] ++
        m.map (fun b => encode (.crcStep b)))) = .next t ∧
    t.crcAcc = crc16From s.crcAcc (l ++ m) ∧ t.sd = s.sd)

/-- Two byte lists of equal length that differ in exactly one byte have different checksums
(40_crc16.md section 3, a fact the spec derives). -/
def Obligations.OneByteDamageChangesTheChecksum : Prop :=
  ∀ (acc : U16) (l m : List Byte) (a b : Byte), a ≠ b →
    crc16From acc (l ++ a :: m) ≠ crc16From acc (l ++ b :: m)

/-! ### Resets and units -/

/-- R196: each software reset resets its unit and leaves the other, and the two together leave both
units as hardware reset does. -/
def Obligations.SoftwareResetsTogetherAreHardwareReset : Prop :=
  ∀ s : State, ∃ t u v,
    exec .crcReset s = .next t ∧ t.crcAcc = 0xFFFF#16 ∧ t.sd = s.sd ∧
    exec .sdReset s = .next u ∧ u.sd = SdUnit.reset ∧ u.crcAcc = s.crcAcc ∧
    exec .sdReset t = .next v ∧
    v.crcAcc = (State.resetFor s.delim).crcAcc ∧ v.sd = (State.resetFor s.delim).sd ∧
    v.delim = (State.resetFor s.delim).delim

/-- Which command can write which state (10_state.md section 6, the table of read and write sets,
which the spec derives): the CRC16 unit only by its two writing commands, the SD unit, every register
and every buffer byte of it, only by the SD commands, and the mode, the operands and the requests by
none. -/
def Obligations.UnitsAreWrittenByTheirOwnCommandsOnly : Prop :=
  ∀ (i : Instr) (s t : State), exec i s = .next t →
    (i ≠ .crcReset → (∀ b, i ≠ .crcStep b) → t.crcAcc = s.crcAcc) ∧
    (i ≠ .sdReset → (∀ b, i ≠ .sdStep b) →
      t.sd = s.sd ∧ ∀ sp a, t.sd.load sp a = s.sd.load sp a) ∧
    t.delim = s.delim ∧ t.ops = s.ops ∧ t.pending = s.pending

/-! ### The CODEC unit: the encoder (41_encode.md) -/

/-- R118: the words; for a descriptor that passes the six checks, the frame, its header packed by sums
of shifted fields, its body in order and its checksum low byte first; for any other descriptor, the
first failing check in the order of the pseudocode with its field and bound; the field numbers; and
the example. No state is written in either case. -/
def Obligations.EncFollowsItsPseudocode : Prop :=
  (∀ imm8 : Byte, decode (wordOf 0x10#8 imm8) = .ok .enc) ∧
  (∀ s : State, s.ops.md.Encodable →
    let md := s.ops.md
    let ph := md.payload.length + md.type.toNat * 2 ^ 10 + bit md.internal * 2 ^ 14 +
      bit md.offp * 2 ^ 15
    let mh := md.id.length + bit md.query * 2 ^ 4 + md.ackNum.toNat * 2 ^ 5
    let off := if md.offp then
      [BitVec.ofNat 8 md.offset.toNat, BitVec.ofNat 8 (md.offset.toNat / 256)] else []
    let body := [BitVec.ofNat 8 ph, BitVec.ofNat 8 (ph / 256), BitVec.ofNat 8 mh] ++ md.id ++ off ++
      md.payload
    let c := (crc16 body).toNat
    exec .enc s = .next { s with responses := s.responses ++
      [.frame (body ++ [BitVec.ofNat 8 c, BitVec.ofNat 8 (c / 256)])] }) ∧
  (∀ s : State, ¬ s.ops.md.Encodable →
    exec .enc s = .next { s with responses := s.responses ++ [.error
      (if 15 < s.ops.md.type.toNat then .validation .type 15
       else if s.ops.md.id.length < 1 then .validation .idLen 1
       else if 15 < s.ops.md.id.length then .validation .idLen 15
       else if 1023 < s.ops.md.payload.length then .validation .payLen 1023
       else if 7 < s.ops.md.ackNum.toNat then .validation .ackNum 7
       else .validation .ack 0)] }) ∧
  fieldNumber .type = 1 ∧ fieldNumber .idLen = 2 ∧ fieldNumber .payLen = 3 ∧
  fieldNumber .ackNum = 4 ∧ fieldNumber .ack = 5 ∧
  (∀ s : State, s.ops.md =
      { id := [0x61#8, 0x62#8, 0x63#8]
        payload := [0x2A#8]
        type := 5#8
        internal := false
        query := false
        offp := false
        offset := 0
        ack := false
        ackNum := 0 } →
    exec .enc s = .next { s with responses := s.responses ++ [.frame [0x01#8, 0x14#8, 0x03#8,
      0x61#8, 0x62#8, 0x63#8, 0x2A#8, 0x64#8, 0xBA#8]] })

/-- `ENCD` answers what `ENC` answers, a frame wrapped in 0x01 and 0x04, 8 to 1047 bytes, an error
unchanged, in either mode (a command of the spec's own making, 92_eei_decisions.md D31). -/
def Obligations.EncdWrapsWhatEncReturns : Prop :=
  (∀ s : State, s.ops.md.Encodable → ∃ f : List Byte,
    exec .enc s = .next { s with responses := s.responses ++ [.frame f] } ∧
    exec .encd s =
      .next { s with responses := s.responses ++ [.frame ([0x01#8] ++ f ++ [0x04#8])] } ∧
    8 ≤ f.length + 2 ∧ f.length + 2 ≤ 1047) ∧
  (∀ s : State, ¬ s.ops.md.Encodable → ∃ e : BlockError,
    exec .enc s = .next { s with responses := s.responses ++ [.error e] } ∧
    exec .encd s = .next { s with responses := s.responses ++ [.error e] })

/-- R65, R66, R71 of the frames `ENC` returns: the header fields stand at their bit positions in the
little-endian payloadHeader and in the messageHeader, the other fields follow in order without
padding, and the last two bytes are the checksum of all before them, low byte first. -/
def Obligations.EncodedFrameHasTheWireLayout : Prop :=
  ∀ s : State, s.ops.md.Encodable → ∃ f : List Byte,
    exec .enc s = .next { s with responses := s.responses ++ [.frame f] } ∧
    (let md := s.ops.md
     let ph := (byteAt f 0).toNat + 256 * (byteAt f 1).toNat
     let mh := (byteAt f 2).toNat
     ph % 2 ^ 10 = md.payload.length ∧ ph / 2 ^ 10 % 2 ^ 4 = md.type.toNat ∧
     ph / 2 ^ 14 % 2 = bit md.internal ∧ ph / 2 ^ 15 = bit md.offp ∧
     mh % 2 ^ 4 = md.id.length ∧ mh / 2 ^ 4 % 2 = bit md.query ∧ mh / 2 ^ 5 = md.ackNum.toNat ∧
     f = [byteAt f 0, byteAt f 1, byteAt f 2] ++ md.id ++
       (if md.offp then [lo8 md.offset, hi8 md.offset] else []) ++ md.payload ++
       [byteAt f (f.length - 2), byteAt f (f.length - 1)] ∧
     (byteAt f (f.length - 2)).toNat + 256 * (byteAt f (f.length - 1)).toNat =
       (crc16 (f.take (f.length - 2))).toNat)

/-- The length of a frame, and that both ends of its range occur (41_encode.md section 1, "Length of
the result", which the spec derives). -/
def Obligations.EncodedFrameLength : Prop :=
  (∀ s : State, s.ops.md.Encodable → ∃ f : List Byte,
    exec .enc s = .next { s with responses := s.responses ++ [.frame f] } ∧
    f.length = 5 + s.ops.md.id.length + 2 * bit s.ops.md.offp + s.ops.md.payload.length ∧
    6 ≤ f.length ∧ f.length ≤ 1045) ∧
  (∃ md, md.Encodable ∧ ∃ f, encodeFrame md = .ok f ∧ f.length = 6) ∧
  (∃ md, md.Encodable ∧ ∃ f, encodeFrame md = .ok f ∧ f.length = 1045)

/-- Two descriptors give the same frame exactly when they agree in all that is transmitted
(41_encode.md section 3, which the spec derives). -/
def Obligations.DescriptorsWithTheSameFrame : Prop :=
  ∀ s t : State, s.ops.md.Encodable → t.ops.md.Encodable → ∃ f g : List Byte,
    exec .enc s = .next { s with responses := s.responses ++ [.frame f] } ∧
    exec .enc t = .next { t with responses := t.responses ++ [.frame g] } ∧
    (f = g ↔ s.ops.md.id = t.ops.md.id ∧ s.ops.md.payload = t.ops.md.payload ∧
      s.ops.md.type = t.ops.md.type ∧ s.ops.md.internal = t.ops.md.internal ∧
      s.ops.md.query = t.ops.md.query ∧ s.ops.md.offp = t.ops.md.offp ∧
      s.ops.md.ackNum = t.ops.md.ackNum ∧
      (s.ops.md.offp = true → s.ops.md.offset = t.ops.md.offset))

/-! ### The CODEC unit: the one-shot decoder (42_decode.md) -/

/-- The error of an input that `DEC` does not accept: the first failing step, the checksum before
every length but the first. Nothing else is returned and no state is written. The order for short
inputs and the case N = 0 are the spec's own decisions (92_eei_decisions.md D10, D11). -/
def Obligations.DecReportsTheFirstFailingStep : Prop :=
  ∀ s : State,
    let l := s.ops.buf
    let n := l.length
    let rx := (byteAt l (n - 2)).toNat + 256 * (byteAt l (n - 1)).toNat
    let ph := (byteAt l 0).toNat + 256 * (byteAt l 1).toNat
    let idLen := (byteAt l 2).toNat % 16
    (n < 2 ∨ (crc16 (l.take (n - 2))).toNat ≠ rx ∨ n < 5 ∨ idLen = 0 ∨
      n ≠ 5 + idLen + 2 * (ph / 2 ^ 15) + ph % 2 ^ 10) →
    exec .dec s = .next { s with responses := s.responses ++ [.error
      (if n < 2 then .length
       else if (crc16 (l.take (n - 2))).toNat ≠ rx then .checksum
       else .length)] }

/-- The message of an input that passes every step: each field read at its place in the frame, the
header bits as numbers, `ack` = (ackNum ≠ 0), and the time value of this command. The step N = 0 is
the spec's own decision (92_eei_decisions.md D11), and the place of each field and the rule for `ack`
are its derivations. -/
def Obligations.DecReturnsTheMessageOfAnAcceptedInput : Prop :=
  ∀ s : State,
    let l := s.ops.buf
    let n := l.length
    let rx := (byteAt l (n - 2)).toNat + 256 * (byteAt l (n - 1)).toNat
    let ph := (byteAt l 0).toNat + 256 * (byteAt l 1).toNat
    let mh := (byteAt l 2).toNat
    let idLen := mh % 2 ^ 4
    let payLen := ph % 2 ^ 10
    let o := 2 * (ph / 2 ^ 15)
    5 ≤ n → (crc16 (l.take (n - 2))).toNat = rx → idLen ≠ 0 → n = 5 + idLen + o + payLen →
    exec .dec s = .next { s with responses := s.responses ++ [.message
      { id := (l.drop 3).take idLen
        payload := (l.drop (3 + idLen + o)).take payLen
        type := BitVec.ofNat 4 (ph / 2 ^ 10)
        internal := decide (ph / 2 ^ 14 % 2 = 1)
        query := decide (mh / 2 ^ 4 % 2 = 1)
        offset := if ph / 2 ^ 15 = 1 then
          some (BitVec.ofNat 16 ((byteAt l (3 + idLen)).toNat +
            256 * (byteAt l (4 + idLen)).toNat)) else none
        ack := decide (mh / 2 ^ 5 ≠ 0)
        ackNum := BitVec.ofNat 3 (mh / 2 ^ 5)
        timestamp := s.ops.now }] }

/-- Decoding what was encoded gives the message back, for every descriptor that `ENC` accepts, with
`ack` = (ackNum ≠ 0) and the decoder's own time (42_decode.md section 3, "Round trip", a property the
spec derives). -/
def Obligations.DecodeOfEncodeReturnsTheMessage : Prop :=
  ∀ s : State, s.ops.md.Encodable → ∃ f : List Byte,
    exec .enc s = .next { s with responses := s.responses ++ [.frame f] } ∧
    ∀ u : State, u.ops.buf = f →
      exec .dec u = .next { u with responses := u.responses ++ [.message
        { id := s.ops.md.id
          payload := s.ops.md.payload
          type := s.ops.md.type.setWidth 4
          internal := s.ops.md.internal
          query := s.ops.md.query
          offset := if s.ops.md.offp then some s.ops.md.offset else none
          ack := decide (s.ops.md.ackNum ≠ 0)
          ackNum := s.ops.md.ackNum.setWidth 3
          timestamp := u.ops.now }] }

/-- Encoding what was decoded gives the input back, for every input that `DEC` accepts
(42_decode.md section 3, "Conversely", a property the spec derives). -/
def Obligations.EncodeOfDecodeReturnsTheInput : Prop :=
  ∀ (u s : State) (m : Msg),
    exec .dec u = .next { u with responses := u.responses ++ [.message m] } →
    s.ops.md =
      { id := m.id
        payload := m.payload
        type := m.type.setWidth 8
        internal := m.internal
        query := m.query
        offp := m.offset.isSome
        offset := m.offset.getD 0
        ack := m.ack
        ackNum := m.ackNum.setWidth 8 } →
    exec .enc s = .next { s with responses := s.responses ++ [.frame u.ops.buf] }

/-- A frame in which one byte has been changed, so also one in which one bit has been flipped, is
answered with `ChecksumError`, wherever the byte stands (42_decode.md section 3, "Checksum
sensitivity", a property the spec derives). -/
def Obligations.OneByteDamageIsAChecksumError : Prop :=
  ∀ s : State, s.ops.md.Encodable → ∃ f : List Byte,
    exec .enc s = .next { s with responses := s.responses ++ [.frame f] } ∧
    ∀ (u : State) (k : Nat) (b : Byte), k < f.length → b ≠ byteAt f k → u.ops.buf = f.set k b →
      exec .dec u = .next { u with responses := u.responses ++ [.error .checksum] }

/-- The answer of a codec command is a function of its operands: neither the units nor the mode nor
what came before matter (20_memory.md section 3, which the spec derives). -/
def Obligations.CodecCommandsArePure : Prop :=
  ∀ (i : Instr) (s t : State), i = .enc ∨ i = .encd ∨ i = .dec → s.ops = t.ops → ∃ r : Response,
    exec i s = .next { s with responses := s.responses ++ [r] } ∧
    exec i t = .next { t with responses := t.responses ++ [r] }

/-! ### The SD unit (43_streaming.md) -/

/-- R142: the words, the effect in every state, the response, that a second reset changes nothing
more, that the mode and the accumulator stay, and the example. -/
def Obligations.SdResetClearsTheUnit : Prop :=
  (∀ imm8 : Byte, decode (wordOf 0x20#8 imm8) = .ok .sdReset) ∧
  (∀ s : State, exec .sdReset s =
    .next { s with sd := SdUnit.reset, responses := s.responses ++ [.nothing] }) ∧
  SdUnit.reset.state = .idle ∧ SdUnit.reset.cnt = 0 ∧ SdUnit.reset.crc = 0xFFFF#16 ∧
  SdUnit.reset.ck0 = 0x00#8 ∧ (∀ sp i, SdUnit.reset.load sp i = 0x00#8) ∧
  (∀ s : State, ∃ t u, exec .sdReset s = .next t ∧ exec .sdReset t = .next u ∧ u.sd = t.sd ∧
    t.crcAcc = s.crcAcc ∧ t.delim = s.delim ∧ t.sd = (State.resetFor s.delim).sd) ∧
  (∀ s : State, s.delim = false → s.sd = SdUnit.reset → ∃ t u,
    runSteps 5 (s.withWords [0x2101#16, 0x2114#16, 0x2103#16, 0x2161#16, 0x2162#16]) = .next t ∧
    t.sd.state = .msgid ∧ t.sd.cnt = 2 ∧ t.sd.crc = 0x47A4#16 ∧
    exec .sdReset t = .next u ∧ u.sd.state = .idle ∧ u.sd.cnt = 0 ∧ u.sd.crc = 0xFFFF#16)

/-- `IDLE` in non-delimited mode: the byte is the first header byte (43_streaming.md section 3, a rule
the spec derives). -/
def Obligations.SdStepIdleTakesTheFirstHeaderByte : Prop :=
  ∀ (s : State) (b : Byte), s.sd.BuffersOk → s.sd.state = .idle → s.delim = false →
    ∃ t, exec (.sdStep b) s = .next t ∧ OnlySdUnit s t (.stream none none) ∧
      t.sd.state = .hdr ∧ t.sd.cnt = 1 ∧ t.sd.crc = crcStep s.sd.crc b ∧ t.sd.ck0 = s.sd.ck0 ∧
      ∀ sp i, t.sd.load sp i = if sp = .hdr ∧ i = 0 then b else s.sd.load sp i

/-- R145: `IDLE` in delimited mode. 0x01 starts a frame attempt, any other byte changes nothing; in
both cases nothing is reported, stored or folded. From the reset state the count is then 0 and the
running CRC the seed. -/
def Obligations.SdStepIdleIgnoresNoise : Prop :=
  (∀ (s : State) (b : Byte), s.sd.state = .idle → s.delim = true →
    exec (.sdStep b) s =
      .next { s with sd := if b = 0x01#8 then { s.sd with state := .hdr } else s.sd,
                     responses := s.responses ++ [.stream none none] }) ∧
  (∀ s : State, s.sd = SdUnit.reset → s.delim = true → ∃ t, exec (.sdStep 0x01#8) s = .next t ∧
    t.sd.state = .hdr ∧ t.sd.cnt = 0 ∧ t.sd.crc = 0xFFFF#16)

/-- `HDR`: the byte is stored, folded and counted; the third byte leads to `MSGID`, or, when it gives
N = 0, to `LengthError` and reset (that branch is the spec's own decision, 92_eei_decisions.md
D11). -/
def Obligations.SdStepTakesHeaderBytes : Prop :=
  ∀ (s : State) (b : Byte), s.sd.BuffersOk → s.sd.state = .hdr → s.sd.cnt.toNat ≤ 2 →
    ∃ t r, exec (.sdStep b) s = .next t ∧ OnlySdUnit s t r ∧
      if s.sd.cnt.toNat = 2 ∧ b.toNat % 2 ^ 4 = 0 then
        t.sd = SdUnit.reset ∧ r = .stream none (some .length)
      else
        r = .stream none none ∧ TookByte s.sd t.sd .hdr b ∧
        if s.sd.cnt.toNat = 2 then t.sd.state = .msgid ∧ t.sd.cnt = 0
        else t.sd.state = .hdr ∧ t.sd.cnt.toNat = s.sd.cnt.toNat + 1

/-- R148: `MSGID`. The byte, whichever it is, is stored, folded and counted; the N-th leads to
`OFFSET`, or past it when there is no offset, and then past `PAYLOAD` when M = 0. -/
def Obligations.SdStepTakesIdentifierBytes : Prop :=
  ∀ (s : State) (b : Byte), s.sd.BuffersOk → s.sd.state = .msgid → s.sd.cnt.toNat < 15 →
    ∃ t, exec (.sdStep b) s = .next t ∧ OnlySdUnit s t (.stream none none) ∧
      TookByte s.sd t.sd .id b ∧
      if s.sd.cnt.toNat + 1 = s.sd.header.idLen.toNat then
        t.sd.cnt = 0 ∧
        t.sd.state = if s.sd.header.offp then .offset
          else if 0 < s.sd.header.payLen.toNat then .payload else .checksum
      else t.sd.state = .msgid ∧ t.sd.cnt.toNat = s.sd.cnt.toNat + 1

/-- R149: `OFFSET`. The byte is stored, the first at index 0, the low byte, folded and counted; the
second leads to `PAYLOAD`, or past it when M = 0. The state is entered only when offp = 1. -/
def Obligations.SdStepTakesOffsetBytes : Prop :=
  (∀ (s : State) (b : Byte), s.sd.BuffersOk → s.sd.state = .offset → s.sd.cnt.toNat < 2 →
    ∃ t, exec (.sdStep b) s = .next t ∧ OnlySdUnit s t (.stream none none) ∧
      TookByte s.sd t.sd .off b ∧
      if s.sd.cnt.toNat = 1 then
        t.sd.cnt = 0 ∧
        t.sd.state = if 0 < s.sd.header.payLen.toNat then .payload else .checksum
      else t.sd.state = .offset ∧ t.sd.cnt.toNat = s.sd.cnt.toNat + 1) ∧
  (∀ (s t : State) (b : Byte), exec (.sdStep b) s = .next t → s.sd.state ≠ .offset →
    t.sd.state = .offset → t.sd.header.offp = true)

/-- R150: `PAYLOAD`. The byte, whichever it is, is stored, folded and counted; the M-th leads to
`CHECKSUM`. The state is entered only when M > 0. -/
def Obligations.SdStepTakesPayloadBytes : Prop :=
  (∀ (s : State) (b : Byte), s.sd.BuffersOk → s.sd.state = .payload → s.sd.cnt.toNat < 1023 →
    ∃ t, exec (.sdStep b) s = .next t ∧ OnlySdUnit s t (.stream none none) ∧
      TookByte s.sd t.sd .pay b ∧
      if s.sd.cnt.toNat + 1 = s.sd.header.payLen.toNat then
        t.sd.cnt = 0 ∧ t.sd.state = .checksum
      else t.sd.state = .payload ∧ t.sd.cnt.toNat = s.sd.cnt.toNat + 1) ∧
  (∀ (s t : State) (b : Byte), exec (.sdStep b) s = .next t → s.sd.state ≠ .payload →
    t.sd.state = .payload → 0 < t.sd.header.payLen.toNat)

/-- `CHECKSUM`: the first byte is kept; the second completes a little-endian `u16` that is compared
with the running CRC: unequal, `ChecksumError` and reset; equal, `EOT` is awaited in delimited mode
and the message emitted in the other. Neither byte is folded. Comparing at the second byte in both
modes is the spec's own decision (92_eei_decisions.md D14). -/
def Obligations.SdStepComparesTheChecksum : Prop :=
  (∀ (s : State) (b : Byte), s.sd.state = .checksum → s.sd.cnt = 0 →
    exec (.sdStep b) s = .next { s with sd := { s.sd with ck0 := b, cnt := 1 },
                                        responses := s.responses ++ [.stream none none] }) ∧
  (∀ (s : State) (b : Byte), s.sd.state = .checksum → s.sd.cnt = 1 →
    exec (.sdStep b) s =
      if s.sd.ck0.toNat + 256 * b.toNat ≠ s.sd.crc.toNat then
        .next { s with sd := SdUnit.reset,
                       responses := s.responses ++ [.stream none (some .checksum)] }
      else if s.delim then
        .next { s with sd := { s.sd with cnt := 0, state := .eot },
                       responses := s.responses ++ [.stream none none] }
      else
        .next { s with sd := SdUnit.reset,
                       responses := s.responses ++ [.stream (some (sdMsg s.sd s.ops.now)) none] })

/-- `EOT`: 0x04 emits the message, any other byte is `FramingError`; the unit is reset either way and
the byte is not looked at again (the spec's own decision, 92_eei_decisions.md D15). -/
def Obligations.SdStepChecksTheEndDelimiter : Prop :=
  ∀ (s : State) (b : Byte), s.sd.state = .eot →
    exec (.sdStep b) s = .next { s with
      sd := SdUnit.reset
      responses := s.responses ++ [if b = 0x04#8 then .stream (some (sdMsg s.sd s.ops.now)) none
        else .stream none (some .framing)] }

/-- R155: the emitted message, in both places where one is emitted, read from the buffers as they
stand before the unit is reset, the header bits as numbers, with the time value of the emitting
step. -/
def Obligations.EmittedMessageIsReadFromTheBuffers : Prop :=
  ∀ (s : State) (b : Byte),
    (s.sd.state = .eot ∧ b = 0x04#8) ∨
      (s.sd.state = .checksum ∧ s.sd.cnt = 1 ∧ s.delim = false ∧
        s.sd.ck0.toNat + 256 * b.toNat = s.sd.crc.toNat) →
    let ph := (s.sd.load .hdr 0).toNat + 256 * (s.sd.load .hdr 1).toNat
    let mh := (s.sd.load .hdr 2).toNat
    exec (.sdStep b) s = .next { s with
      sd := SdUnit.reset
      responses := s.responses ++ [.stream (some
        { id := (List.range (mh % 2 ^ 4)).map (s.sd.load .id)
          payload := (List.range (ph % 2 ^ 10)).map (s.sd.load .pay)
          type := BitVec.ofNat 4 (ph / 2 ^ 10)
          internal := decide (ph / 2 ^ 14 % 2 = 1)
          query := decide (mh / 2 ^ 4 % 2 = 1)
          offset := if ph / 2 ^ 15 = 1 then
            some (BitVec.ofNat 16 ((s.sd.load .off 0).toNat + 256 * (s.sd.load .off 1).toNat))
            else none
          ack := decide (mh / 2 ^ 5 ≠ 0)
          ackNum := BitVec.ofNat 3 (mh / 2 ^ 5)
          timestamp := s.ops.now }) none] }

/-- R197: whenever `SD.STEP` reports a message or an error the unit is reset, every register and
every buffer byte; the accumulator of the CRC16 unit keeps its value through every command but its own
two. -/
def Obligations.SdUnitResetsItselfAfterEveryReport : Prop :=
  (∀ (s t : State) (b : Byte) (m : Option Msg) (e : Option BlockError),
    exec (.sdStep b) s = .next t → t.responses = s.responses ++ [.stream m e] →
    m ≠ none ∨ e ≠ none → t.sd = SdUnit.reset ∧ ∀ sp i, t.sd.load sp i = 0x00#8) ∧
  (∀ (i : Instr) (s t : State), exec i s = .next t → i ≠ .crcReset → (∀ b, i ≠ .crcStep b) →
    t.crcAcc = s.crcAcc)

/-- R175: `FramingError` is reported exactly by `SD.STEP` in delimited mode in state `EOT` for a byte
other than 0x04, and the unit is then reset. So it is reported only after the checksum matched: the
step that enters `EOT`, from whatever state, is one in `CHECKSUM`, in delimited mode, whose byte
completes the kept one to the running CRC. -/
def Obligations.FramingErrorOnlyAfterAGoodChecksum : Prop :=
  (∀ (s : State) (b : Byte), s.Inv → s.sd.state = .eot → b ≠ 0x04#8 → s.delim = true ∧
    exec (.sdStep b) s = .next { s with sd := SdUnit.reset,
                                        responses := s.responses ++ [.stream none (some .framing)] }) ∧
  (∀ (i : Instr) (s t : State) (r : Response), s.Inv → exec i s = .next t →
    t.responses = s.responses ++ [r] → reportedError r = some .framing →
    (∃ b, i = .sdStep b ∧ b ≠ 0x04#8) ∧ s.delim = true ∧ s.sd.state = .eot ∧
      s.sd.crc = crc16 s.sd.taken ∧ (∃ hi : Byte, le16 s.sd.ck0 hi = s.sd.crc) ∧
      t.sd = SdUnit.reset) ∧
  (∀ (s t : State) (b : Byte), exec (.sdStep b) s = .next t → s.sd.state ≠ .eot →
    t.sd.state = .eot →
    s.sd.state = .checksum ∧ s.sd.cnt ≠ 0 ∧ s.delim = true ∧ le16 s.sd.ck0 b = s.sd.crc ∧
      t.sd = { s.sd with cnt := 0, state := .eot })

/-- Between two resets the unit only moves forward: a step that reports nothing leads to a later
state, or counts one byte in the same state, or changes nothing (43_streaming.md section 5, which the
spec derives). -/
def Obligations.SdStateMovesForward : Prop :=
  ∀ (s t : State) (b : Byte), exec (.sdStep b) s = .next t →
    t.responses = s.responses ++ [.stream none none] →
    (sdStateNumber s.sd.state).toNat < (sdStateNumber t.sd.state).toNat ∨
      (t.sd.state = s.sd.state ∧ t.sd.cnt.toNat = s.sd.cnt.toNat + 1) ∨ t.sd = s.sd

/-! ### The invariant (10_state.md section 7) -/

/-- The invariant holds after reset, in either mode, whichever `State.reset` takes (log 1). -/
def Obligations.InvariantHoldsAtReset : Prop :=
  (∀ d : Bool, (State.resetFor d).Inv) ∧ State.reset.Inv

/-- Every step keeps the invariant: the ranges of the counter in each state, what each state implies of
the header, the buffers canonical and inside their sizes, and the running CRC that of the bytes taken
(10_state.md section 7, which the spec derives). -/
def Obligations.InvariantIsKeptByEveryStep : Prop :=
  ∀ s t : State, s.Inv → step s = .next t → t.Inv

/-- From a state with the invariant no step stops: every command returns, and no write falls outside a
buffer (20_memory.md section 4, "Bounds", which the spec derives). -/
def Obligations.EveryStepAnswersUnderTheInvariant : Prop :=
  ∀ s : State, s.Inv → ∃ t, step s = .next t

/-- `SD.STEP` completes for every byte and in either mode unless its count lies outside the buffer its
state writes, and there it stops with the fault that names this buffer and the count: the model's
choice for states that no run reaches (log 9). -/
def Obligations.SdStepStopsOnlyOutsideABuffer : Prop :=
  ∀ (s : State) (b : Byte),
    let outside (st : SdState) (size : Nat) : Prop := s.sd.state = st ∧ size ≤ s.sd.cnt.toNat
    let stopsAt (sp : Space) : Prop :=
      exec (.sdStep b) s = .fault (.outsideBuffer sp s.sd.cnt.toNat)
    (¬ (outside .hdr 3 ∨ outside .msgid 15 ∨ outside .offset 2 ∨ outside .payload 1023) →
      ∃ t, exec (.sdStep b) s = .next t) ∧
    (outside .hdr 3 → stopsAt .hdr) ∧ (outside .msgid 15 → stopsAt .id) ∧
    (outside .offset 2 → stopsAt .off) ∧ (outside .payload 1023 → stopsAt .pay)

/-! ### Runs of the SD unit -/

/-- In non-delimited mode, from the reset state: the bytes of a frame that `DEC` accepts, fed one at a
time, are answered with nothing until the last and then with the message `DEC` returns, and the unit
is back in the reset state (43_streaming.md section 5, "Streaming equivalence", a property the spec
derives). -/
def Obligations.StreamingEqualsOneShotUndelimited : Prop :=
  ∀ (s : State) (cs : List Command) (f : List Byte) (now : Nat) (m : Msg),
    s.delim = false → s.sd = SdUnit.reset → decodeFrame f now = .ok m → IsFeed cs f →
    LastNow cs now →
    ∃ t, runSteps f.length (s.withCommands cs) = .next t ∧ t.sd = SdUnit.reset ∧
      t.crcAcc = s.crcAcc ∧ t.pending = [] ∧
      t.responses = s.responses ++ feedResponses f.length m

/-- The same in delimited mode for the frame between 0x01 and 0x04, whatever bytes the frame holds
(43_streaming.md section 5, "Streaming equivalence", a property the spec derives). -/
def Obligations.StreamingEqualsOneShotDelimited : Prop :=
  ∀ (s : State) (cs : List Command) (f : List Byte) (now : Nat) (m : Msg),
    s.delim = true → s.sd = SdUnit.reset → decodeFrame f now = .ok m →
    IsFeed cs ([0x01#8] ++ f ++ [0x04#8]) → LastNow cs now →
    ∃ t, runSteps (f.length + 2) (s.withCommands cs) = .next t ∧ t.sd = SdUnit.reset ∧
      t.crcAcc = s.crcAcc ∧ t.pending = [] ∧
      t.responses = s.responses ++ feedResponses (f.length + 2) m

/-- From any state whatever, `SD.RESET` and then a fresh frame produce the frame's message, with
nothing left of an abandoned attempt, in either mode (43_streaming.md section 2, the sentence that
quotes "no residue from the aborted frame"; its streaming half is derived by the spec). -/
def Obligations.ResetMidFrameLeavesNoResidue : Prop :=
  ∀ (s : State) (c : Command) (cs : List Command) (f : List Byte) (now : Nat) (m : Msg),
    decodeFrame f now = .ok m → decode c.word = .ok .sdReset →
    IsFeed cs (if s.delim then [0x01#8] ++ f ++ [0x04#8] else f) → LastNow cs now →
    ∃ t, runSteps (cs.length + 1) (s.withCommands (c :: cs)) = .next t ∧ t.sd = SdUnit.reset ∧
      t.crcAcc = s.crcAcc ∧
      t.responses = s.responses ++ [.nothing] ++ feedResponses cs.length m

/-- In delimited mode, from the reset state, any number of bytes other than 0x01 are ignored
(43_streaming.md section 3, state `IDLE`, over a whole stretch of noise). -/
def Obligations.NoiseIsSkipped : Prop :=
  ∀ (s : State) (cs : List Command) (bs : List Byte), s.delim = true → s.sd = SdUnit.reset →
    IsFeed cs bs → (∀ b ∈ bs, b ≠ 0x01#8) →
    ∃ t, runSteps bs.length (s.withCommands cs) = .next t ∧ t.sd = SdUnit.reset ∧
      t.crcAcc = s.crcAcc ∧
      t.responses = s.responses ++ List.replicate bs.length (.stream none none)

/-- How many bytes an attempt takes: once the header is complete there are N, 2 if there is an offset,
M, 2 and, in delimited mode, 1 byte left; every step that reports nothing takes one of them; a message
or a `FramingError` comes with the last, a `ChecksumError` with the last of the frame
(43_streaming.md section 5, which the spec derives). -/
def Obligations.BytesLeftOfAFrameAttempt : Prop :=
  ∀ (s t : State) (b : Byte) (m : Option Msg) (e : Option BlockError), s.Inv →
    exec (.sdStep b) s = .next t → t.responses = s.responses ++ [.stream m e] →
    (s.sd.state = .hdr → s.sd.cnt.toNat = 2 → e = none →
      bytesLeft t.delim t.sd = t.sd.header.idLen.toNat + 2 * bit t.sd.header.offp +
        t.sd.header.payLen.toNat + 2 + bit s.delim) ∧
    (s.sd.HeaderComplete → m = none → e = none →
      bytesLeft t.delim t.sd + 1 = bytesLeft s.delim s.sd) ∧
    (m ≠ none → bytesLeft s.delim s.sd = 1) ∧
    (e = some .framing → bytesLeft s.delim s.sd = 1) ∧
    (e = some .checksum → bytesLeft s.delim s.sd = 1 + bit s.delim)

/-! ### The whole machine -/

/-- No outcome depends on a buffer byte that was not written since the last `sd_reset()`: two machines
that agree in all else, and in what their SD units have taken, answer every command alike and go on
agreeing (10_state.md section 3, which the spec derives). -/
def Obligations.OutcomesIgnoreUnwrittenBytes : Prop :=
  ∀ (i : Instr) (s t : State), s.Inv → t.Inv → s.crcAcc = t.crcAcc → s.delim = t.delim →
    s.ops = t.ops → SameSoFar s.sd t.sd →
    ∃ s' t' r, exec i s = .next s' ∧ exec i t = .next t' ∧
      s'.responses = s.responses ++ [r] ∧ t'.responses = t.responses ++ [r] ∧
      s'.crcAcc = t'.crcAcc ∧ SameSoFar s'.sd t'.sd

/-- Every command that answers gives one response, of the kind the response table gives it; `SD.STEP`
never reports both a message and an error (the table is the spec's own decision,
92_eei_decisions.md D2, D9). -/
def Obligations.EveryCommandGivesOneResponseOfItsKind : Prop :=
  ∀ (i : Instr) (s t : State), exec i s = .next t → ∃ r, t.responses = s.responses ++ [r] ∧
    match i with
    | .crcReset => r = .nothing
    | .crcStep _ => r = .nothing
    | .crcRead => r = .value s.crcAcc
    | .enc => (∃ f, r = .frame f) ∨ ∃ k n, r = .error (.validation k n)
    | .encd => (∃ f, r = .frame f) ∨ ∃ k n, r = .error (.validation k n)
    | .dec => (∃ m, r = .message m) ∨ r = .error .checksum ∨ r = .error .length
    | .sdReset => r = .nothing
    | .sdStep _ => r = .stream none none ∨ (∃ m, r = .stream (some m) none) ∨
        r = .stream none (some .checksum) ∨ r = .stream none (some .length) ∨
        r = .stream none (some .framing)

/-- R180: with an error no message and no frame is returned; `SD.STEP` has reset its unit and changed
nothing else, every other command has changed nothing, a reserved word neither; the requests that
follow stay. -/
def Obligations.ErrorsChangeNothingButTheSdUnit : Prop :=
  (∀ (i : Instr) (s t : State) (r : Response) (e : BlockError), exec i s = .next t →
    t.responses = s.responses ++ [r] → reportedError r = some e →
    producedMessage r = none ∧ (∀ f, r ≠ .frame f) ∧
    ((∃ b, i = .sdStep b) →
      t = { s with sd := SdUnit.reset, responses := s.responses ++ [r] }) ∧
    ((∀ b, i ≠ .sdStep b) → t = { s with responses := s.responses ++ [r] })) ∧
  (∀ (s : State) (c : Command) (rest : List Request) (e : DecodeError),
    s.pending = .command c :: rest → decode c.word = .error e →
    ∃ t, step s = .next t ∧ t.crcAcc = s.crcAcc ∧ t.delim = s.delim ∧ t.sd = s.sd ∧
      t.pending = rest)

/-- Every message the block delivers, one-shot or streamed, is a legal and consistent message: an
identifier of 1 to 15 bytes, a payload of at most 1023, `ack` = (ackNum ≠ 0), stamped with the time
value of the command that delivers it (10_state.md section 5; N ≥ 1 is the spec's own decision,
92_eei_decisions.md D11, and the rule for `ack` its derivation). -/
def Obligations.DeliveredMessagesAreLegal : Prop :=
  ∀ (i : Instr) (s t : State) (r : Response) (m : Msg), s.Inv → exec i s = .next t →
    t.responses = s.responses ++ [r] → producedMessage r = some m →
    1 ≤ m.id.length ∧ m.id.length ≤ 15 ∧ m.payload.length ≤ 1023 ∧
      m.ack = decide (m.ackNum ≠ 0) ∧ m.timestamp = s.ops.now

/-- The numbers of the errors and of the states, which are labels of the spec's own choice
(92_eei_decisions.md D9, D22), and that no two errors of different names share one. -/
def Obligations.ErrorAndStateNumbers : Prop :=
  (∀ (k : MdField) (n : Nat), errorCode (.validation k n) = 1) ∧
  errorCode .checksum = 2 ∧ errorCode .length = 3 ∧ errorCode .framing = 4 ∧
  errorCode .protocolLimit = 5 ∧ errorCode .deliveryTimeout = 6 ∧ errorCode .send = 7 ∧
  errorCode .cancelled = 8 ∧ errorCode .illegalCommand = 15 ∧
  sdStateNumber .idle = 0 ∧ sdStateNumber .hdr = 1 ∧ sdStateNumber .msgid = 2 ∧
  sdStateNumber .offset = 3 ∧ sdStateNumber .payload = 4 ∧ sdStateNumber .checksum = 5 ∧
  sdStateNumber .eot = 6 ∧
  ∀ e e' : BlockError, errorCode e = errorCode e' → e = e' ∨
    ∃ k n k' n', e = .validation k n ∧ e' = .validation k' n'

/-- No step answers with an error of the reliability layer: the code of every new response is 0, 1,
2, 3, 4 or 15 (60_exceptions.md section 1; the numbers are the spec's own decision,
92_eei_decisions.md D9). -/
def Obligations.HeldErrorCodesAreNeverReturned : Prop :=
  ∀ (s t : State) (r : Response), step s = .next t → t.responses = s.responses ++ [r] →
    responseCode r ∈ [0, 1, 2, 3, 4, 15]
end

