-- ==== Sys2Proof/Laws/Operands.lean ====
section
/-! SUPPORT. Byte order and header bits: taking apart what was put together. -/

namespace Sys2Proof.Machine

@[simp] theorem le16_lo8_hi8 (v : U16) : le16 (lo8 v) (hi8 v) = v := by
  ext i hi
  simp only [le16, lo8, hi8, BitVec.getElem_or, BitVec.getElem_setWidth, BitVec.getElem_shiftLeft,
    BitVec.getLsbD_extractLsb']
  by_cases h : i < 8
  · simp [h, BitVec.getLsbD_eq_getElem hi]
  · have h8 : i - 8 < 8 := by omega
    simp [h, h8, show 8 + (i - 8) = i by omega, BitVec.getLsbD_eq_getElem hi]

@[simp] theorem lo8_le16 (a b : Byte) : lo8 (le16 a b) = a := by
  ext i hi
  simp [lo8, le16, hi, show i < 16 by omega]

@[simp] theorem hi8_le16 (a b : Byte) : hi8 (le16 a b) = b := by
  ext i hi
  simp [hi8, le16, hi, show 8 + i < 16 by omega]

/-- `le16` is determined by its two bytes. -/
theorem le16_inj {a b c d : Byte} : le16 a b = le16 c d ↔ a = c ∧ b = d :=
  ⟨fun h => ⟨by rw [← lo8_le16 a b, h, lo8_le16], by rw [← hi8_le16 a b, h, hi8_le16]⟩,
    fun ⟨h, h'⟩ => by rw [h, h']⟩

theorem lo8_toNat (v : U16) : (lo8 v).toNat = v.toNat % 256 := by
  simp [lo8]

theorem hi8_toNat (v : U16) : (hi8 v).toNat = v.toNat / 256 := by
  have := v.isLt
  simp only [hi8, BitVec.extractLsb'_toNat, Nat.shiftRight_eq_div_pow]
  omega

theorem le16_toNat (a b : Byte) : (le16 a b).toNat = a.toNat + 256 * b.toNat := by
  have h1 := lo8_toNat (le16 a b)
  have h2 := hi8_toNat (le16 a b)
  rw [lo8_le16] at h1
  rw [hi8_le16] at h2
  omega

/-! ### The header as numbers (30_encoding.md R66, R67) -/

section Header
variable (b0 b1 b2 : Byte)

theorem headerOf_payLen : (headerOf b0 b1 b2).payLen.toNat = (b0.toNat + 256 * b1.toNat) % 1024 := by
  simp [headerOf, le16_toNat]

theorem headerOf_type :
    (headerOf b0 b1 b2).type.toNat = (b0.toNat + 256 * b1.toNat) / 1024 % 16 := by
  simp [headerOf, le16_toNat, Nat.shiftRight_eq_div_pow]

theorem headerOf_internal :
    (headerOf b0 b1 b2).internal = decide ((b0.toNat + 256 * b1.toNat) / 16384 % 2 = 1) := by
  simp [headerOf, BitVec.getLsbD, Nat.testBit_eq_decide_div_mod_eq, le16_toNat]

theorem headerOf_offp :
    (headerOf b0 b1 b2).offp = decide ((b0.toNat + 256 * b1.toNat) / 32768 % 2 = 1) := by
  simp [headerOf, BitVec.getLsbD, Nat.testBit_eq_decide_div_mod_eq, le16_toNat]

theorem headerOf_idLen : (headerOf b0 b1 b2).idLen.toNat = b2.toNat % 16 := by
  simp [headerOf]

theorem headerOf_query : (headerOf b0 b1 b2).query = decide (b2.toNat / 16 % 2 = 1) := by
  simp [headerOf, BitVec.getLsbD, Nat.testBit_eq_decide_div_mod_eq]

theorem headerOf_ackNum : (headerOf b0 b1 b2).ackNum.toNat = b2.toNat / 32 := by
  have := b2.isLt
  simp only [headerOf, BitVec.extractLsb'_toNat, Nat.shiftRight_eq_div_pow]
  omega

end Header

/-! ### The packed header as numbers (30_encoding.md R74) -/

/-- Fields that do not overlap are added. -/
theorem or_mul_two_pow {x k : Nat} (y : Nat) (h : x < 2 ^ k) :
    x ||| y * 2 ^ k = x + y * 2 ^ k := by
  rw [Nat.or_comm, Nat.mul_comm, ← Nat.two_pow_add_eq_or_of_lt h, Nat.add_comm]

theorem bit_lt (b : Bool) : bit b < 2 := by cases b <;> decide

theorem packPh_toNat {payLen : Nat} {type : Byte} (internal offp : Bool) (hm : payLen ≤ 1023)
    (ht : type.toNat ≤ 15) :
    (packPh payLen type internal offp).toNat =
      payLen + type.toNat * 1024 + bit internal * 16384 + bit offp * 32768 := by
  have hi := bit_lt internal
  have ho := bit_lt offp
  simp only [packPh, BitVec.toNat_or, BitVec.toNat_shiftLeft, BitVec.toNat_ofNat,
    BitVec.toNat_setWidth, Nat.shiftLeft_eq]
  rw [Nat.mod_eq_of_lt (show payLen < 2 ^ 16 by omega),
    Nat.mod_eq_of_lt (show type.toNat < 2 ^ 16 by omega),
    Nat.mod_eq_of_lt (show type.toNat * 2 ^ 10 < 2 ^ 16 by omega),
    Nat.mod_eq_of_lt (show bit internal < 2 ^ 16 by omega),
    Nat.mod_eq_of_lt (show bit internal * 2 ^ 14 < 2 ^ 16 by omega),
    Nat.mod_eq_of_lt (show bit offp < 2 ^ 16 by omega),
    Nat.mod_eq_of_lt (show bit offp * 2 ^ 15 < 2 ^ 16 by omega),
    or_mul_two_pow (x := payLen) (k := 10) _ (by omega),
    or_mul_two_pow (x := payLen + _) (k := 14) _ (by omega),
    or_mul_two_pow (x := payLen + _ + _) (k := 15) _ (by omega)]
  omega

theorem packMh_toNat {idLen : Nat} (query : Bool) {ackNum : Byte} (hn : idLen ≤ 15)
    (ha : ackNum.toNat ≤ 7) :
    (packMh idLen query ackNum).toNat = idLen + bit query * 16 + ackNum.toNat * 32 := by
  have hq := bit_lt query
  simp only [packMh, BitVec.toNat_or, BitVec.toNat_shiftLeft, BitVec.toNat_ofNat, Nat.shiftLeft_eq]
  rw [Nat.mod_eq_of_lt (show idLen < 2 ^ 8 by omega),
    Nat.mod_eq_of_lt (show bit query < 2 ^ 8 by omega),
    Nat.mod_eq_of_lt (show bit query * 2 ^ 4 < 2 ^ 8 by omega),
    Nat.mod_eq_of_lt (show ackNum.toNat * 2 ^ 5 < 2 ^ 8 by omega),
    or_mul_two_pow (x := idLen) (k := 4) _ (by omega),
    or_mul_two_pow (x := idLen + _) (k := 5) _ (by omega)]
  omega

/-- Unpacking undoes packing, on fields in range (30_encoding.md R74, R75). -/
theorem headerOf_pack {payLen idLen : Nat} {type ackNum : Byte} (internal offp query : Bool)
    (hm : payLen ≤ 1023) (ht : type.toNat ≤ 15) (hn : idLen ≤ 15) (ha : ackNum.toNat ≤ 7) :
    headerOf (lo8 (packPh payLen type internal offp)) (hi8 (packPh payLen type internal offp))
        (packMh idLen query ackNum) =
      { payLen := BitVec.ofNat 10 payLen, type := type.setWidth 4, internal := internal,
        offp := offp, idLen := BitVec.ofNat 4 idLen, query := query,
        ackNum := ackNum.setWidth 3 } := by
  have hp := packPh_toNat internal offp hm ht
  have hq := packMh_toNat query hn ha
  have e : (lo8 (packPh payLen type internal offp)).toNat +
      256 * (hi8 (packPh payLen type internal offp)).toNat =
      payLen + type.toNat * 1024 + bit internal * 16384 + bit offp * 32768 := by
    rw [← le16_toNat, le16_lo8_hi8, hp]
  have hbi := bit_lt internal
  have hbo := bit_lt offp
  have hbq := bit_lt query
  have k1 := headerOf_payLen (lo8 (packPh payLen type internal offp))
    (hi8 (packPh payLen type internal offp)) (packMh idLen query ackNum)
  have k2 := headerOf_type (lo8 (packPh payLen type internal offp))
    (hi8 (packPh payLen type internal offp)) (packMh idLen query ackNum)
  have k3 := headerOf_internal (lo8 (packPh payLen type internal offp))
    (hi8 (packPh payLen type internal offp)) (packMh idLen query ackNum)
  have k4 := headerOf_offp (lo8 (packPh payLen type internal offp))
    (hi8 (packPh payLen type internal offp)) (packMh idLen query ackNum)
  have k5 := headerOf_idLen (lo8 (packPh payLen type internal offp))
    (hi8 (packPh payLen type internal offp)) (packMh idLen query ackNum)
  have k6 := headerOf_query (lo8 (packPh payLen type internal offp))
    (hi8 (packPh payLen type internal offp)) (packMh idLen query ackNum)
  have k7 := headerOf_ackNum (lo8 (packPh payLen type internal offp))
    (hi8 (packPh payLen type internal offp)) (packMh idLen query ackNum)
  rw [e] at k1 k2 k3 k4
  rw [hq] at k5 k6 k7
  generalize headerOf (lo8 (packPh payLen type internal offp))
    (hi8 (packPh payLen type internal offp)) (packMh idLen query ackNum) = h at *
  obtain ⟨f1, f2, f3, f4, f5, f6, f7⟩ := h
  simp only [Header.mk.injEq] at *
  refine ⟨?_, ?_, ?_, ?_, ?_, ?_, ?_⟩
  · apply BitVec.eq_of_toNat_eq; rw [k1, BitVec.toNat_ofNat]; omega
  · apply BitVec.eq_of_toNat_eq; rw [k2, BitVec.toNat_setWidth]; omega
  · rw [k3, show (payLen + type.toNat * 1024 + bit internal * 16384 + bit offp * 32768) / 16384 % 2 =
      bit internal by omega]
    cases internal <;> rfl
  · rw [k4, show (payLen + type.toNat * 1024 + bit internal * 16384 + bit offp * 32768) / 32768 % 2 =
      bit offp by omega]
    cases offp <;> rfl
  · apply BitVec.eq_of_toNat_eq; rw [k5, BitVec.toNat_ofNat]; omega
  · rw [k6, show (idLen + bit query * 16 + ackNum.toNat * 32) / 16 % 2 = bit query by omega]
    cases query <;> rfl
  · apply BitVec.eq_of_toNat_eq; rw [k7, BitVec.toNat_setWidth]; omega

end Sys2Proof.Machine
end

