-- ==== Sys2Proof/Laws/State.lean ====
section
/-! SUPPORT. One lemma per field per update of the state, true by definition, so that no proof
unfolds an update. -/

namespace Sys2Proof.Machine

section Respond
variable (s : State) (r : Response)

@[simp] theorem State.respond_crcAcc : (s.respond r).crcAcc = s.crcAcc := rfl
@[simp] theorem State.respond_delim : (s.respond r).delim = s.delim := rfl
@[simp] theorem State.respond_sd : (s.respond r).sd = s.sd := rfl
@[simp] theorem State.respond_ops : (s.respond r).ops = s.ops := rfl
@[simp] theorem State.respond_pending : (s.respond r).pending = s.pending := rfl
@[simp] theorem State.respond_responses : (s.respond r).responses = s.responses ++ [r] := rfl

end Respond

theorem State.raise_eq (s : State) (e : BlockError) : s.raise e = s.respond (.error e) := rfl

theorem State.conclude_ok (s : State) (r : Response) : s.conclude (.ok r) = s.respond r := rfl

theorem State.conclude_error (s : State) (e : BlockError) :
    s.conclude (.error e) = s.respond (.error e) := rfl

@[simp] theorem State.rejectWord_eq (s : State) (e : DecodeError) :
    s.rejectWord e = s.respond (.error .illegalCommand) := by cases e; rfl

section HardwareReset
variable (s : State)

@[simp] theorem State.hardwareReset_crcAcc : s.hardwareReset.crcAcc = crcSeed := rfl
@[simp] theorem State.hardwareReset_delim : s.hardwareReset.delim = s.delim := rfl
@[simp] theorem State.hardwareReset_sd : s.hardwareReset.sd = SdUnit.reset := rfl
@[simp] theorem State.hardwareReset_ops : s.hardwareReset.ops = s.ops := rfl
@[simp] theorem State.hardwareReset_pending : s.hardwareReset.pending = s.pending := rfl
@[simp] theorem State.hardwareReset_responses : s.hardwareReset.responses = s.responses := rfl

end HardwareReset

section Reset
variable (d : Bool)

@[simp] theorem State.resetFor_crcAcc : (State.resetFor d).crcAcc = crcSeed := rfl
@[simp] theorem State.resetFor_delim : (State.resetFor d).delim = d := rfl
@[simp] theorem State.resetFor_sd : (State.resetFor d).sd = SdUnit.reset := rfl
@[simp] theorem State.resetFor_pending : (State.resetFor d).pending = [] := rfl
@[simp] theorem State.resetFor_responses : (State.resetFor d).responses = [] := rfl

@[simp] theorem SdUnit.reset_state : SdUnit.reset.state = .idle := rfl
@[simp] theorem SdUnit.reset_cnt : SdUnit.reset.cnt = 0 := rfl
@[simp] theorem SdUnit.reset_crc : SdUnit.reset.crc = crcSeed := rfl
@[simp] theorem SdUnit.reset_ck0 : SdUnit.reset.ck0 = 0 := rfl
@[simp] theorem SdUnit.reset_mem (sp : Space) : SdUnit.reset.mem sp = [] := by cases sp <;> rfl
@[simp] theorem SdUnit.reset_load (sp : Space) (i : Nat) :
    SdUnit.reset.load sp i = Memory.blank := by cases sp <;> rfl
@[simp] theorem sdReset_eq (u : SdUnit) : sdReset u = SdUnit.reset := rfl

end Reset

section SetMem
variable (u : SdUnit) (sp : Space) (m : Memory)

@[simp] theorem SdUnit.setMem_state : (u.setMem sp m).state = u.state := by cases sp <;> rfl
@[simp] theorem SdUnit.setMem_cnt : (u.setMem sp m).cnt = u.cnt := by cases sp <;> rfl
@[simp] theorem SdUnit.setMem_crc : (u.setMem sp m).crc = u.crc := by cases sp <;> rfl
@[simp] theorem SdUnit.setMem_ck0 : (u.setMem sp m).ck0 = u.ck0 := by cases sp <;> rfl
@[simp] theorem SdUnit.setMem_mem_same : (u.setMem sp m).mem sp = m := by cases sp <;> rfl
theorem SdUnit.setMem_mem_other {sp' : Space} (h : sp' ≠ sp) :
    (u.setMem sp m).mem sp' = u.mem sp' := by
  cases sp <;> cases sp' <;> first | rfl | exact absurd rfl h

end SetMem

section Registers
variable (u : SdUnit)

@[simp] theorem SdUnit.load_setRegisters (st : SdState) (c : BitVec 10) (k : U16) (b : Byte)
    (sp : Space) (i : Nat) :
    SdUnit.load { u with state := st, cnt := c, crc := k, ck0 := b } sp i = u.load sp i := by
  cases sp <;> rfl
@[simp] theorem SdUnit.header_setRegisters (st : SdState) (c : BitVec 10) (k : U16) (b : Byte) :
    SdUnit.header { u with state := st, cnt := c, crc := k, ck0 := b } = u.header := rfl

@[simp] theorem enter_state (st : SdState) : (enter u st).state = st := rfl
@[simp] theorem enter_cnt (st : SdState) : (enter u st).cnt = 0 := rfl
@[simp] theorem enter_crc (st : SdState) : (enter u st).crc = u.crc := rfl
@[simp] theorem enter_ck0 (st : SdState) : (enter u st).ck0 = u.ck0 := rfl
@[simp] theorem enter_mem (st : SdState) (sp : Space) : (enter u st).mem sp = u.mem sp := by
  cases sp <;> rfl
@[simp] theorem enter_load (st : SdState) (sp : Space) (i : Nat) :
    (enter u st).load sp i = u.load sp i := by cases sp <;> rfl
@[simp] theorem enter_header (st : SdState) : (enter u st).header = u.header := rfl

end Registers

section Fetch
variable (s : State)

theorem State.fetch_nil (h : s.pending = []) : s.fetch = none := by
  simp [State.fetch, h]

theorem State.fetch_reset {rest : List Request} (h : s.pending = .reset :: rest) :
    s.fetch = some (.reset, { s with pending := rest }) := by
  simp [State.fetch, h]

theorem State.fetch_command {c : Command} {rest : List Request}
    (h : s.pending = .command c :: rest) :
    s.fetch = some (.command c, { s with pending := rest, ops := c.ops }) := by
  simp [State.fetch, h]

/-- Placing a word and fetching it gives back the state it was placed in. -/
theorem State.fetch_withFetchWord (nbits w : Nat) :
    (s.withFetchWord nbits w).fetch =
      some (.command ⟨BitVec.ofNat 16 (w % 2 ^ nbits), s.ops⟩, s) := rfl

end Fetch

end Sys2Proof.Machine
end

