-- ==== Sys2Proof/Laws/Codec.lean ====
section
/-! SUPPORT. What the encoder, the one-shot decoder and their commands can answer, said once. -/

namespace Sys2Proof.Machine

/-- The encoder's checks pass exactly on encodable descriptors (41_encode.md R112). -/
theorem validate_none_iff (md : Descriptor) : validate md = none ↔ md.Encodable := by
  unfold validate maxType minId maxId maxPayload maxAckNum Descriptor.Encodable
  split_ifs with h1 h2 h3 h4 h5 h6
  · simp; omega
  · simp; omega
  · simp; omega
  · simp; omega
  · simp; omega
  · obtain ⟨h6, h7⟩ := h6
    simp [h6, h7]
  · simp only [true_iff]
    refine ⟨by omega, by omega, by omega, by omega, by omega, fun h => ?_⟩
    cases ha : md.ack
    · exact absurd ⟨h, ha⟩ h6
    · rfl

theorem encodeFrame_encodable {md : Descriptor} (h : md.Encodable) :
    encodeFrame md = .ok (sealBody (frameBody md)) := by
  simp [encodeFrame, (validate_none_iff md).mpr h]

theorem encodeFrame_error {md : Descriptor} {e : BlockError} (h : validate md = some e) :
    encodeFrame md = .error e := by
  simp [encodeFrame, h]

/-- Everything the encoder can answer. -/
theorem encodeFrame_cases (md : Descriptor) :
    (md.Encodable ∧ encodeFrame md = .ok (sealBody (frameBody md))) ∨
      (¬ md.Encodable ∧ ∃ f b, validate md = some (.validation f b) ∧
        encodeFrame md = .error (.validation f b)) := by
  cases h : validate md with
  | none => exact .inl ⟨(validate_none_iff md).mp h, by simp [encodeFrame, h]⟩
  | some e =>
    refine .inr ⟨fun hE => by simp [(validate_none_iff md).mpr hE] at h, ?_⟩
    have he := encodeFrame_error h
    unfold validate at h
    split_ifs at h <;> (simp only [Option.some.injEq] at h; subst h; exact ⟨_, _, rfl, he⟩)

/-- When the one-shot decoder accepts an input, and what it then returns (42_decode.md R126). -/
theorem decodeFrame_ok_iff (l : List Byte) (now : Nat) (m : Msg) :
    decodeFrame l now = .ok m ↔
      5 ≤ l.length ∧ computedChecksum l = receivedChecksum l ∧ (headerAt l).idLen.toNat ≠ 0 ∧
        l.length = frameLen (headerAt l) ∧ m = extract l now := by
  unfold decodeFrame
  split_ifs with h1 h2 h3 h4 h5
  · simp; omega
  · simp [h2]
  · simp; omega
  · simp [h4]
  · simp [h5]
  · simp only [ne_eq, not_not] at h2 h5
    simp only [Except.ok.injEq]
    exact ⟨fun h => ⟨by omega, h2, h4, h5, h.symm⟩, fun h => h.2.2.2.2.symm⟩

/-- The errors of the one-shot decoder (60_exceptions.md R173, R174). -/
theorem decodeFrame_error {l : List Byte} {now : Nat} {e : BlockError}
    (h : decodeFrame l now = .error e) : e = .length ∨ e = .checksum := by
  unfold decodeFrame at h
  split_ifs at h <;> simp_all

/-! ### The commands -/

theorem execEnc_ok {s : State} {f : List Byte} (h : encodeFrame s.ops.md = .ok f) :
    execEnc s = .next (s.respond (.frame f)) := by
  simp [execEnc, h, Except.map, State.conclude]

theorem execEnc_error {s : State} {e : BlockError} (h : encodeFrame s.ops.md = .error e) :
    execEnc s = .next (s.respond (.error e)) := by
  simp [execEnc, h, Except.map, State.conclude, State.raise]

theorem execEncd_ok {s : State} {f : List Byte} (h : encodeFrame s.ops.md = .ok f) :
    execEncd s = .next (s.respond (.frame (wrapFrame f))) := by
  simp [execEncd, encodeDelimited, h, Except.map, State.conclude]

theorem execEncd_error {s : State} {e : BlockError} (h : encodeFrame s.ops.md = .error e) :
    execEncd s = .next (s.respond (.error e)) := by
  simp [execEncd, encodeDelimited, h, Except.map, State.conclude, State.raise]

theorem execDec_ok {s : State} {m : Msg} (h : decodeFrame s.ops.buf s.ops.now = .ok m) :
    execDec s = .next (s.respond (.message m)) := by
  simp [execDec, h, Except.map, State.conclude]

theorem execDec_error {s : State} {e : BlockError}
    (h : decodeFrame s.ops.buf s.ops.now = .error e) :
    execDec s = .next (s.respond (.error e)) := by
  simp [execDec, h, Except.map, State.conclude, State.raise]

/-- Everything `ENC` can do. -/
theorem execEnc_cases (s : State) :
    (∃ f, encodeFrame s.ops.md = .ok f ∧ execEnc s = .next (s.respond (.frame f))) ∨
      (∃ k b, encodeFrame s.ops.md = .error (.validation k b) ∧
        execEnc s = .next (s.respond (.error (.validation k b)))) := by
  rcases encodeFrame_cases s.ops.md with ⟨-, h⟩ | ⟨-, k, b, -, h⟩
  · exact .inl ⟨_, h, execEnc_ok h⟩
  · exact .inr ⟨k, b, h, execEnc_error h⟩

/-- Everything `ENCD` can do. -/
theorem execEncd_cases (s : State) :
    (∃ f, encodeFrame s.ops.md = .ok f ∧
        execEncd s = .next (s.respond (.frame (wrapFrame f)))) ∨
      (∃ k b, encodeFrame s.ops.md = .error (.validation k b) ∧
        execEncd s = .next (s.respond (.error (.validation k b)))) := by
  rcases encodeFrame_cases s.ops.md with ⟨-, h⟩ | ⟨-, k, b, -, h⟩
  · exact .inl ⟨_, h, execEncd_ok h⟩
  · exact .inr ⟨k, b, h, execEncd_error h⟩

/-- Everything `DEC` can do. -/
theorem execDec_cases (s : State) :
    (∃ m, decodeFrame s.ops.buf s.ops.now = .ok m ∧
        execDec s = .next (s.respond (.message m))) ∨
      (∃ e, (e = .length ∨ e = .checksum) ∧ decodeFrame s.ops.buf s.ops.now = .error e ∧
        execDec s = .next (s.respond (.error e))) := by
  cases h : decodeFrame s.ops.buf s.ops.now with
  | ok m => exact .inl ⟨m, rfl, execDec_ok h⟩
  | error e => exact .inr ⟨e, decodeFrame_error h, rfl, execDec_error h⟩

end Sys2Proof.Machine
end

