-- ==== Sys2Proof/Laws/Memory.lean ====
section
/-! SUPPORT. The laws of the byte buffers: read after write, and the canonical form, which every
operation keeps. -/

namespace Sys2Proof.Machine

@[simp] theorem Memory.read_nil (i : Nat) : Memory.read [] i = Memory.blank := rfl

theorem Memory.read_cons (a : Nat) (v : Byte) (m : Memory) (i : Nat) :
    Memory.read ((a, v) :: m) i = if i = a then v else Memory.read m i := rfl

/-- An index below every entry reads as an unlisted one. -/
theorem Memory.read_below {m : Memory} {i : Nat} (h : ∀ c ∈ m, i < c.1) :
    m.read i = Memory.blank := by
  induction m with
  | nil => rfl
  | cons c m ih =>
    obtain ⟨a, v⟩ := c
    have ha : i < a := h (a, v) (by simp)
    rw [Memory.read_cons, if_neg (by omega)]
    exact ih fun c hc => h c (by simp [hc])

/-- A tail of a canonical buffer is canonical. -/
theorem Memory.wf_tail {c : Host.Cell} {m : Memory} (h : Memory.wf (c :: m)) : Memory.wf m :=
  ⟨(List.pairwise_cons.mp h.1).2, fun d hd => h.2 d (by simp [hd])⟩

/-- Read after write, on a canonical buffer. -/
theorem Memory.read_write {m : Memory} (h : m.wf) (i : Nat) (b : Byte) (j : Nat) :
    (m.write i b).read j = if j = i then b else m.read j := by
  induction m with
  | nil =>
    by_cases hb : b = Memory.blank
    · simp [Memory.write, hb]
    · simp [Memory.write, hb, Memory.read_cons]
  | cons c m ih =>
    obtain ⟨a, v⟩ := c
    have hlt : ∀ c ∈ m, a < c.1 := (List.pairwise_cons.mp h.1).1
    have ih := ih (Memory.wf_tail h)
    unfold Memory.write
    split
    · rename_i hia
      have hi : Memory.read ((a, v) :: m) i = Memory.blank := by
        apply Memory.read_below
        intro c hc
        rcases List.mem_cons.mp hc with rfl | hc
        · exact hia
        · exact lt_trans hia (hlt c hc)
      by_cases hb : b = Memory.blank
      · rw [if_pos hb]
        by_cases hj : j = i
        · rw [if_pos hj, hj, hi, hb]
        · rw [if_neg hj]
      · rw [if_neg hb, Memory.read_cons]
    · split
      · rename_i _ hia
        subst hia
        have hi : Memory.read m i = Memory.blank := Memory.read_below hlt
        by_cases hb : b = Memory.blank
        · rw [if_pos hb, Memory.read_cons]
          by_cases hj : j = i
          · rw [if_pos hj, hj, hi, hb]
          · simp [hj]
        · rw [if_neg hb, Memory.read_cons, Memory.read_cons]
          by_cases hj : j = i <;> simp [hj]
      · rw [Memory.read_cons, Memory.read_cons, ih]
        by_cases hj : j = i
        · subst hj; simp_all
        · simp [hj]

/-- What a write leaves in the list. -/
theorem Memory.mem_write {m : Memory} {i : Nat} {b : Byte} {c : Host.Cell}
    (h : c ∈ m.write i b) : c ∈ m ∨ (c = (i, b) ∧ b ≠ Memory.blank) := by
  induction m with
  | nil =>
    unfold Memory.write at h
    split at h <;> simp_all
  | cons d m ih =>
    obtain ⟨a, v⟩ := d
    unfold Memory.write at h
    split at h
    · split at h
      · exact .inl h
      · rcases List.mem_cons.mp h with rfl | h
        · exact .inr ⟨rfl, by assumption⟩
        · exact .inl h
    · split at h
      · split at h
        · exact .inl (by simp [h])
        · rcases List.mem_cons.mp h with rfl | h
          · exact .inr ⟨rfl, by assumption⟩
          · exact .inl (by simp [h])
      · rcases List.mem_cons.mp h with rfl | h
        · exact .inl (by simp)
        · rcases ih h with h | h
          · exact .inl (by simp [h])
          · exact .inr h

/-- A write keeps the canonical form. -/
theorem Memory.wf_write {m : Memory} (h : m.wf) (i : Nat) (b : Byte) : (m.write i b).wf := by
  refine ⟨?_, fun c hc => ?_⟩
  · induction m with
    | nil => unfold Memory.write; split <;> simp
    | cons d m ih =>
      obtain ⟨a, v⟩ := d
      have hlt : ∀ c ∈ m, a < c.1 := (List.pairwise_cons.mp h.1).1
      have ht := Memory.wf_tail h
      unfold Memory.write
      split
      · split
        · exact h.1
        · refine List.pairwise_cons.mpr ⟨fun c hc => ?_, h.1⟩
          rcases List.mem_cons.mp hc with rfl | hc
          · assumption
          · exact lt_trans (by assumption) (hlt c hc)
      · split
        · rename_i _ hia
          subst hia
          split
          · exact ht.1
          · exact List.pairwise_cons.mpr ⟨hlt, ht.1⟩
        · refine List.pairwise_cons.mpr ⟨fun c hc => ?_, ih ht⟩
          rcases Memory.mem_write hc with hc | ⟨rfl, -⟩
          · exact hlt c hc
          · show a < i
            omega
  · rcases Memory.mem_write hc with hc | ⟨rfl, hb⟩
    · exact h.2 c hc
    · exact hb

/-- A write inside a buffer keeps it inside its size. -/
theorem BufferOk.write {sp : Space} {m : Memory} (h : BufferOk sp m) {i : Nat} (hi : i < sp.size)
    (b : Byte) : BufferOk sp (m.write i b) :=
  ⟨Memory.wf_write h.1 i b, fun c hc => by
    rcases Memory.mem_write hc with hc | ⟨rfl, -⟩
    · exact h.2 c hc
    · exact hi⟩

theorem SdUnit.BuffersOk.mem {u : SdUnit} (h : u.BuffersOk) (sp : Space) :
    BufferOk sp (u.mem sp) := by
  obtain ⟨h1, h2, h3, h4⟩ := h
  cases sp <;> assumption

theorem SdUnit.buffersOk_of {u : SdUnit} (h : ∀ sp, BufferOk sp (u.mem sp)) : u.BuffersOk :=
  ⟨h .hdr, h .id, h .off, h .pay⟩

theorem SdUnit.reset_buffersOk : SdUnit.reset.BuffersOk := by decide

/-- A store inside a buffer writes that one byte. -/
theorem SdUnit.store_ok {u v : SdUnit} {sp : Space} {i : Nat} {b : Byte}
    (h : u.store sp i b = .ok v) :
    i < sp.size ∧ v = u.setMem sp ((u.mem sp).write i b) := by
  unfold SdUnit.store at h
  split at h
  · exact ⟨by assumption, by cases h; rfl⟩
  · cases h

theorem SdUnit.store_inside {u : SdUnit} {sp : Space} {i : Nat} (b : Byte) (h : i < sp.size) :
    u.store sp i b = .ok (u.setMem sp ((u.mem sp).write i b)) := if_pos h

theorem SdUnit.store_outside {u : SdUnit} {sp : Space} {i : Nat} (b : Byte) (h : sp.size ≤ i) :
    u.store sp i b = .error (.outsideBuffer sp i) := if_neg (by omega)

/-- Every byte of every buffer after one write to one of them. -/
theorem SdUnit.load_setMem_write {u : SdUnit} (h : u.BuffersOk) (sp : Space) (i : Nat) (b : Byte)
    (sp' : Space) (j : Nat) :
    (u.setMem sp ((u.mem sp).write i b)).load sp' j =
      if sp' = sp ∧ j = i then b else u.load sp' j := by
  unfold SdUnit.load
  by_cases hs : sp' = sp
  · subst hs
    rw [SdUnit.setMem_mem_same, Memory.read_write (h.mem sp').1]
    simp
  · rw [SdUnit.setMem_mem_other _ _ _ hs]
    simp [hs]

theorem SdUnit.buffersOk_setMem_write {u : SdUnit} (h : u.BuffersOk) {sp : Space} {i : Nat}
    (hi : i < sp.size) (b : Byte) : (u.setMem sp ((u.mem sp).write i b)).BuffersOk := by
  refine SdUnit.buffersOk_of fun sp' => ?_
  by_cases hs : sp' = sp
  · subst hs
    rw [SdUnit.setMem_mem_same]
    exact (h.mem sp').write hi b
  · rw [SdUnit.setMem_mem_other _ _ _ hs]
    exact h.mem sp'

/-! ### Runs of bytes -/

@[simp] theorem Memory.bytes_zero (m : Memory) (i : Nat) : m.bytes i 0 = [] := rfl

@[simp] theorem Memory.length_bytes (m : Memory) (i n : Nat) : (m.bytes i n).length = n := by
  simp [Memory.bytes]

theorem Memory.bytes_succ (m : Memory) (i n : Nat) :
    m.bytes i (n + 1) = m.bytes i n ++ [m.read (i + n)] := by
  simp [Memory.bytes, List.range_succ]

theorem Memory.bytes_congr {m m' : Memory} {i n : Nat}
    (h : ∀ k, k < n → m.read (i + k) = m'.read (i + k)) : m.bytes i n = m'.bytes i n := by
  simpa [Memory.bytes] using h

end Sys2Proof.Machine
end

