-- ==== Sys2Proof/Laws/PerInstr.lean ====
section
/-! SUPPORT. What holds of every command as syntax, one lemma per constructor. -/

namespace Sys2Proof.Laws

/-- The two bytes of a command's word are its opcode and its byte operand, which is 0x00 in format
`Z` (30_encoding.md R80 to R82). -/
def WordFields.Statement (i : Instr) : Prop :=
  opcodeOf (encode i) = opcodeByte i ∧ imm8Of (encode i) = operandByte i ∧
    (hasFormatZ i = true → operandByte i = 0)

/-- Taking a word apart undoes putting it together. -/
theorem opcodeOf_wordOf (op imm8 : Byte) : opcodeOf (wordOf op imm8) = op := by
  ext i hi
  simp [opcodeOf, wordOf, hi, show 8 + i < 16 by omega]

theorem imm8Of_wordOf (op imm8 : Byte) : imm8Of (wordOf op imm8) = imm8 := by
  ext i hi
  simp [imm8Of, wordOf, hi, show i < 16 by omega]

/-- The statement for any command whose format `Z` operand is 0x00. -/
theorem WordFields.of_operand {i : Instr} (h : hasFormatZ i = true → operandByte i = 0) :
    WordFields.Statement i :=
  ⟨opcodeOf_wordOf _ _, imm8Of_wordOf _ _, h⟩

theorem WordFields.crcReset : WordFields.Statement .crcReset := WordFields.of_operand fun _ => rfl
theorem WordFields.crcStep (b : Byte) : WordFields.Statement (.crcStep b) :=
  WordFields.of_operand fun h => by cases h
theorem WordFields.crcRead : WordFields.Statement .crcRead := WordFields.of_operand fun _ => rfl
theorem WordFields.enc : WordFields.Statement .enc := WordFields.of_operand fun _ => rfl
theorem WordFields.encd : WordFields.Statement .encd := WordFields.of_operand fun _ => rfl
theorem WordFields.dec : WordFields.Statement .dec := WordFields.of_operand fun _ => rfl
theorem WordFields.sdReset : WordFields.Statement .sdReset := WordFields.of_operand fun _ => rfl
theorem WordFields.sdStep (b : Byte) : WordFields.Statement (.sdStep b) :=
  WordFields.of_operand fun h => by cases h

end Sys2Proof.Laws
end

