-- ==== Sys2Proof/Laws/Streaming.lean ====
section
/-! SUPPORT. What a step of the SD unit can do, said once: `takeByte`, each state of the unit, and
the meanings over them. -/

namespace Sys2Proof.Machine

/-- The unit after a byte has been stored, folded and counted (43_streaming.md R147). -/
def SdUnit.took (u : SdUnit) (sp : Space) (b : Byte) : SdUnit :=
  { u.setMem sp ((u.mem sp).write u.cnt.toNat b) with crc := crcStep u.crc b, cnt := u.cnt + 1 }

section Took
variable (u : SdUnit) (sp : Space) (b : Byte)

@[simp] theorem SdUnit.took_state : (u.took sp b).state = u.state := by cases sp <;> rfl
@[simp] theorem SdUnit.took_cnt : (u.took sp b).cnt = u.cnt + 1 := rfl
@[simp] theorem SdUnit.took_crc : (u.took sp b).crc = crcStep u.crc b := rfl
@[simp] theorem SdUnit.took_ck0 : (u.took sp b).ck0 = u.ck0 := by cases sp <;> rfl
theorem SdUnit.took_mem (sp' : Space) :
    (u.took sp b).mem sp' = if sp' = sp then (u.mem sp).write u.cnt.toNat b else u.mem sp' := by
  cases sp <;> cases sp' <;> rfl

end Took

theorem SdUnit.took_load {u : SdUnit} (h : u.BuffersOk) (sp : Space) (b : Byte) (sp' : Space)
    (j : Nat) :
    (u.took sp b).load sp' j = if sp' = sp ∧ j = u.cnt.toNat then b else u.load sp' j := by
  rw [← SdUnit.load_setMem_write h]
  cases sp <;> cases sp' <;> rfl

theorem SdUnit.took_buffersOk {u : SdUnit} (h : u.BuffersOk) {sp : Space}
    (hi : u.cnt.toNat < sp.size) (b : Byte) : (u.took sp b).BuffersOk := by
  have := SdUnit.buffersOk_setMem_write h hi b
  cases sp <;> exact this

/-- A byte taken into another buffer leaves the header. -/
theorem SdUnit.took_header {u : SdUnit} {sp : Space} (hs : sp ≠ .hdr) (b : Byte) :
    (u.took sp b).header = u.header := by
  cases sp <;> first | rfl | exact absurd rfl hs

theorem takeByte_inside {sp : Space} {u : SdUnit} (b : Byte) (h : u.cnt.toNat < sp.size) :
    takeByte sp b u = .ok (u.took sp b) := by
  simp [takeByte, SdUnit.store_inside b h, SdUnit.took]

theorem takeByte_outside {sp : Space} {u : SdUnit} (b : Byte) (h : sp.size ≤ u.cnt.toNat) :
    takeByte sp b u = .error (.outsideBuffer sp u.cnt.toNat) := by
  simp [takeByte, SdUnit.store_outside b h]

/-- Everything that taking a byte can do. -/
theorem takeByte_cases (sp : Space) (b : Byte) (u : SdUnit) :
    (u.cnt.toNat < sp.size ∧ takeByte sp b u = .ok (u.took sp b)) ∨
      (sp.size ≤ u.cnt.toNat ∧ takeByte sp b u = .error (.outsideBuffer sp u.cnt.toNat)) := by
  rcases lt_or_ge u.cnt.toNat sp.size with h | h
  · exact .inl ⟨h, takeByte_inside b h⟩
  · exact .inr ⟨h, takeByte_outside b h⟩

/-- The count after a byte has been taken: no buffer is as long as the counter can count. -/
theorem took_cnt_toNat {sp : Space} {u : SdUnit} (b : Byte) (h : u.cnt.toNat < sp.size) :
    (u.took sp b).cnt.toNat = u.cnt.toNat + 1 := by
  have : sp.size ≤ 1023 := by cases sp <;> decide
  rw [SdUnit.took_cnt, BitVec.toNat_add]
  simp
  omega

/-- Everything that `SD.STEP` can do to the unit, when it does not stop: the rows of the transition
table (43_streaming.md R157), with the unit, the message and the error it gives. -/
inductive SdStepCase (delim : Bool) (now : Nat) (b : Byte) (u : SdUnit) :
    SdUnit → Option Msg → Option BlockError → Prop where
  | soh (hs : u.state = .idle) (hd : delim = true) (hb : b = soh) :
      SdStepCase delim now b u { u with state := .hdr } none none
  | noise (hs : u.state = .idle) (hd : delim = true) (hb : b ≠ soh) :
      SdStepCase delim now b u u none none
  | first (hs : u.state = .idle) (hd : delim = false) :
      SdStepCase delim now b u
        { u.setMem .hdr (u.hdr.write 0 b) with crc := crcStep u.crc b, cnt := 1, state := .hdr }
        none none
  | hdrMore (hs : u.state = .hdr) (hc : u.cnt.toNat < 2) :
      SdStepCase delim now b u (u.took .hdr b) none none
  | hdrNoId (hs : u.state = .hdr) (hc : u.cnt.toNat = 2)
      (hn : (u.took .hdr b).header.idLen.toNat = 0) :
      SdStepCase delim now b u SdUnit.reset none (some .length)
  | hdrLast (hs : u.state = .hdr) (hc : u.cnt.toNat = 2)
      (hn : (u.took .hdr b).header.idLen.toNat ≠ 0) :
      SdStepCase delim now b u (enter (u.took .hdr b) .msgid) none none
  | msgidMore (hs : u.state = .msgid) (hc : u.cnt.toNat < 15)
      (hn : u.cnt.toNat + 1 ≠ u.header.idLen.toNat) :
      SdStepCase delim now b u (u.took .id b) none none
  | msgidLast (hs : u.state = .msgid) (hc : u.cnt.toNat < 15)
      (hn : u.cnt.toNat + 1 = u.header.idLen.toNat) :
      SdStepCase delim now b u
        (enter (u.took .id b) (if u.header.offp then .offset else afterOffset u)) none none
  | offsetMore (hs : u.state = .offset) (hc : u.cnt.toNat = 0) :
      SdStepCase delim now b u (u.took .off b) none none
  | offsetLast (hs : u.state = .offset) (hc : u.cnt.toNat = 1) :
      SdStepCase delim now b u (enter (u.took .off b) (afterOffset u)) none none
  | payloadMore (hs : u.state = .payload) (hc : u.cnt.toNat < 1023)
      (hm : u.cnt.toNat + 1 ≠ u.header.payLen.toNat) :
      SdStepCase delim now b u (u.took .pay b) none none
  | payloadLast (hs : u.state = .payload) (hc : u.cnt.toNat < 1023)
      (hm : u.cnt.toNat + 1 = u.header.payLen.toNat) :
      SdStepCase delim now b u (enter (u.took .pay b) .checksum) none none
  | checksumLow (hs : u.state = .checksum) (hc : u.cnt.toNat = 0) :
      SdStepCase delim now b u { u with ck0 := b, cnt := 1 } none none
  | checksumBad (hs : u.state = .checksum) (hc : u.cnt.toNat ≠ 0) (hk : le16 u.ck0 b ≠ u.crc) :
      SdStepCase delim now b u SdUnit.reset none (some .checksum)
  | checksumGood (hs : u.state = .checksum) (hc : u.cnt.toNat ≠ 0) (hk : le16 u.ck0 b = u.crc)
      (hd : delim = true) :
      SdStepCase delim now b u (enter u .eot) none none
  | checksumEmit (hs : u.state = .checksum) (hc : u.cnt.toNat ≠ 0) (hk : le16 u.ck0 b = u.crc)
      (hd : delim = false) :
      SdStepCase delim now b u SdUnit.reset (some (sdMsg u now)) none
  | eotEmit (hs : u.state = .eot) (hb : b = eot) :
      SdStepCase delim now b u SdUnit.reset (some (sdMsg u now)) none
  | eotBad (hs : u.state = .eot) (hb : b ≠ eot) :
      SdStepCase delim now b u SdUnit.reset none (some .framing)

/-- The states and counts in which `SD.STEP` would write outside a buffer. -/
def SdUnit.Outside (u : SdUnit) : Prop :=
  (u.state = .hdr ∧ 3 ≤ u.cnt.toNat) ∨ (u.state = .msgid ∧ 15 ≤ u.cnt.toNat) ∨
    (u.state = .offset ∧ 2 ≤ u.cnt.toNat) ∨ (u.state = .payload ∧ 1023 ≤ u.cnt.toNat)

/-- The state whose step writes a buffer (43_streaming.md R146, R148 to R150). -/
def Space.writer : Space → SdState
  | .hdr => .hdr
  | .id => .msgid
  | .off => .offset
  | .pay => .payload

/-- `after_offset()` looks at the header alone. -/
theorem afterOffset_took {u : SdUnit} {sp : Space} (hs : sp ≠ .hdr) (b : Byte) :
    afterOffset (u.took sp b) = afterOffset u := by
  simp [afterOffset, SdUnit.took_header hs]

/-- What `SD.STEP` does to the unit: one row of the table, or a write outside a buffer. -/
theorem sdStepUnit_cases (delim : Bool) (now : Nat) (b : Byte) (u : SdUnit) :
    (¬ u.Outside ∧ ∃ v m e, sdStepUnit delim now b u = .ok (v, m, e) ∧
        SdStepCase delim now b u v m e) ∨
      (u.Outside ∧ ∃ sp, u.state = sp.writer ∧
        sdStepUnit delim now b u = .error (.outsideBuffer sp u.cnt.toNat)) := by
  cases hs : u.state with
  | idle =>
    left
    refine ⟨by simp [SdUnit.Outside, hs], ?_⟩
    cases delim with
    | true =>
      by_cases hb : b = soh
      · exact ⟨_, _, _, by simp [sdStepUnit, hs, stepIdle, hb, quiet], .soh hs rfl hb⟩
      · exact ⟨_, _, _, by simp [sdStepUnit, hs, stepIdle, hb, quiet], .noise hs rfl hb⟩
    | false =>
      refine ⟨_, _, _, ?_, .first hs rfl⟩
      simp [sdStepUnit, hs, stepIdle, quiet, SdUnit.store_inside b (show 0 < Space.hdr.size by decide),
        SdUnit.mem]
  | hdr =>
    rcases takeByte_cases .hdr b u with ⟨hc, ht⟩ | ⟨hc, ht⟩
    · left
      have hc' : u.cnt.toNat < 3 := hc
      refine ⟨by simp only [SdUnit.Outside, hs]; simp; omega, ?_⟩
      have hn := took_cnt_toNat b hc
      by_cases h3 : u.cnt.toNat = 2
      · by_cases hN : (u.took .hdr b).header.idLen.toNat = 0
        · exact ⟨_, _, _, by simp only [sdStepUnit, hs, stepHdr, ht, hn, h3, hN]; rfl,
            .hdrNoId hs h3 hN⟩
        · refine ⟨_, _, _, ?_, .hdrLast hs h3 hN⟩
          simp only [sdStepUnit, hs, stepHdr, ht, hn, h3, if_true, if_neg hN, quiet]
      · refine ⟨_, _, _, ?_, .hdrMore hs (by omega)⟩
        simp only [sdStepUnit, hs, stepHdr, ht, hn]
        rw [if_neg (by omega)]; rfl
    · right
      exact ⟨.inl ⟨hs, hc⟩, .hdr, rfl, by simp only [sdStepUnit, hs, stepHdr, ht]⟩
  | msgid =>
    rcases takeByte_cases .id b u with ⟨hc, ht⟩ | ⟨hc, ht⟩
    · left
      have hc' : u.cnt.toNat < 15 := hc
      refine ⟨by simp only [SdUnit.Outside, hs]; simp; omega, ?_⟩
      have hn := took_cnt_toNat b hc
      have hh := SdUnit.took_header (u := u) (show Space.id ≠ .hdr by decide) b
      by_cases hN : u.cnt.toNat + 1 = u.header.idLen.toNat
      · refine ⟨_, _, _, ?_, .msgidLast hs hc' hN⟩
        simp only [sdStepUnit, hs, stepMsgid, ht, hn, hh, hN, if_true, quiet,
          afterOffset_took (show Space.id ≠ .hdr by decide)]
      · refine ⟨_, _, _, ?_, .msgidMore hs hc' hN⟩
        simp only [sdStepUnit, hs, stepMsgid, ht, hn, hh, if_neg hN, quiet]
    · right
      exact ⟨.inr (.inl ⟨hs, hc⟩), .id, rfl, by simp only [sdStepUnit, hs, stepMsgid, ht]⟩
  | offset =>
    rcases takeByte_cases .off b u with ⟨hc, ht⟩ | ⟨hc, ht⟩
    · left
      have hc' : u.cnt.toNat < 2 := hc
      refine ⟨by simp only [SdUnit.Outside, hs]; simp; omega, ?_⟩
      have hn := took_cnt_toNat b hc
      by_cases h1 : u.cnt.toNat = 1
      · refine ⟨_, _, _, ?_, .offsetLast hs h1⟩
        simp only [sdStepUnit, hs, stepOffset, ht, hn, h1, if_true, quiet,
          afterOffset_took (show Space.off ≠ .hdr by decide)]
      · refine ⟨_, _, _, ?_, .offsetMore hs (by omega)⟩
        simp only [sdStepUnit, hs, stepOffset, ht, hn, quiet]
        rw [if_neg (by omega)]
    · right
      exact ⟨.inr (.inr (.inl ⟨hs, hc⟩)), .off, rfl, by simp only [sdStepUnit, hs, stepOffset, ht]⟩
  | payload =>
    rcases takeByte_cases .pay b u with ⟨hc, ht⟩ | ⟨hc, ht⟩
    · left
      have hc' : u.cnt.toNat < 1023 := hc
      refine ⟨by simp only [SdUnit.Outside, hs]; simp; omega, ?_⟩
      have hn := took_cnt_toNat b hc
      have hh := SdUnit.took_header (u := u) (show Space.pay ≠ .hdr by decide) b
      by_cases hM : u.cnt.toNat + 1 = u.header.payLen.toNat
      · refine ⟨_, _, _, ?_, .payloadLast hs hc' hM⟩
        simp only [sdStepUnit, hs, stepPayload, ht, hn, hh, hM, if_true, quiet]
      · refine ⟨_, _, _, ?_, .payloadMore hs hc' hM⟩
        simp only [sdStepUnit, hs, stepPayload, ht, hn, hh, if_neg hM, quiet]
    · right
      exact ⟨.inr (.inr (.inr ⟨hs, hc⟩)), .pay, rfl, by simp only [sdStepUnit, hs, stepPayload, ht]⟩
  | checksum =>
    left
    refine ⟨by simp [SdUnit.Outside, hs], ?_⟩
    by_cases hc : u.cnt.toNat = 0
    · exact ⟨_, _, _, by simp only [sdStepUnit, hs, stepChecksum, if_pos hc, quiet],
        .checksumLow hs hc⟩
    · by_cases hk : le16 u.ck0 b = u.crc
      · cases delim with
        | true =>
          exact ⟨_, _, _, by simp [sdStepUnit, hs, stepChecksum, if_neg hc, hk, quiet],
            .checksumGood hs hc hk rfl⟩
        | false =>
          exact ⟨_, _, _, by simp [sdStepUnit, hs, stepChecksum, if_neg hc, hk, sdEmit],
            .checksumEmit hs hc hk rfl⟩
      · exact ⟨_, _, _, by simp [sdStepUnit, hs, stepChecksum, if_neg hc, hk, sdError],
          .checksumBad hs hc hk⟩
  | eot =>
    left
    refine ⟨by simp [SdUnit.Outside, hs], ?_⟩
    by_cases hb : b = eot
    · exact ⟨_, _, _, by simp [sdStepUnit, hs, stepEot, if_pos hb, sdEmit], .eotEmit hs hb⟩
    · exact ⟨_, _, _, by simp [sdStepUnit, hs, stepEot, if_neg hb, sdError], .eotBad hs hb⟩

/-- The meaning of `SD.STEP` where the unit's step does not stop. -/
theorem execSdStep_next {s : State} {b : Byte} {v : SdUnit} {m : Option Msg}
    {e : Option BlockError} (h : sdStepUnit s.delim s.ops.now b s.sd = .ok (v, m, e)) :
    execSdStep b s = .next { s with sd := v, responses := s.responses ++ [.stream m e] } := by
  simp only [execSdStep, h]; rfl

/-- Everything that `SD.STEP` can do to the machine. -/
theorem execSdStep_cases (b : Byte) (s : State) :
    (¬ s.sd.Outside ∧ ∃ v m e,
        execSdStep b s = .next { s with sd := v, responses := s.responses ++ [.stream m e] } ∧
        SdStepCase s.delim s.ops.now b s.sd v m e) ∨
      (s.sd.Outside ∧ ∃ sp, s.sd.state = sp.writer ∧
        execSdStep b s = .fault (.outsideBuffer sp s.sd.cnt.toNat)) := by
  rcases sdStepUnit_cases s.delim s.ops.now b s.sd with ⟨ho, v, m, e, h, hc⟩ | ⟨ho, sp, hs, h⟩
  · exact .inl ⟨ho, v, m, e, execSdStep_next h, hc⟩
  · exact .inr ⟨ho, sp, hs, by simp only [execSdStep, h]⟩

end Sys2Proof.Machine
end

