-- ==== Sys2Proof/Tests/Slice0.lean ====
section
/-! SUPPORT. Tests. The words are written out bit by bit from 30_encoding.md R80 and R85 (opcode in
bits 15 to 8, byte operand in bits 7 to 0); the expected results are those of 95_test_vectors.md,
whose section each test names. A theorem `witness_<Name>` shows a state and operands that meet the
hypotheses of the obligation `<Name>`; where it has several clauses, the parts of the conjunction
are their boundary values. -/

namespace Sys2Proof.Tests

-- One declaration after another: many kernel evaluations at once want more threads than there is
-- memory for.
set_option Elab.async false

open Sys2Proof Sys2Proof.Machine

/-! ### Decoding, one word per constructor and the neighbours of the opcodes -/

theorem test_decode_crcReset : decode 0b0000000000000000#16 = .ok .crcReset := by decide
theorem test_decode_crcReset_ignores_imm8 : decode 0b0000000010100101#16 = .ok .crcReset := by
  decide
theorem test_decode_crcStep : decode 0b0000000100101010#16 = .ok (.crcStep 0x2A#8) := by decide
theorem test_decode_crcRead : decode 0b0000001000000000#16 = .ok .crcRead := by decide
theorem test_decode_enc : decode 0b0001000000000000#16 = .ok .enc := by decide
theorem test_decode_encd : decode 0b0001000100000000#16 = .ok .encd := by decide
theorem test_decode_dec : decode 0b0001001000000000#16 = .ok .dec := by decide
theorem test_decode_sdReset : decode 0b0010000000000001#16 = .ok .sdReset := by decide
theorem test_decode_sdStep : decode 0b0010000100000100#16 = .ok (.sdStep 0x04#8) := by decide
theorem test_decode_reserved :
    decode 0b0000001100000000#16 = .error (.reservedOpcode 0x03#8) ∧
      decode 0b0000111100000000#16 = .error (.reservedOpcode 0x0F#8) ∧
      decode 0b0001001100000000#16 = .error (.reservedOpcode 0x13#8) ∧
      decode 0b0001111100100001#16 = .error (.reservedOpcode 0x1F#8) ∧
      decode 0b0010001000000000#16 = .error (.reservedOpcode 0x22#8) ∧
      decode 0b1111111111111111#16 = .error (.reservedOpcode 0xFF#8) := by decide

theorem test_decodeTableWord_sdStep : decodeTableWord 16 0x21C3 = some (.sdStep 0xC3#8) := by decide
theorem test_decodeTableWord_reserved : decodeTableWord 16 0x0300 = none := by decide

/-! ### Well-formedness: an ill-formed term for each check -/

/-- A descriptor with nothing but an identifier. -/
def plain (id : List Byte) : Descriptor := { noOperands.md with id := id }

/-- The operands of a codec command. -/
def opsOf (md : Descriptor) (buf : List Byte) (now : Nat) : Operands := ⟨md, buf, now⟩

/-- A small instance: the least capacities the spec allows, `NOW` of one bit. -/
def small : Params := ⟨1, 16, 1024, 1046⟩

theorem test_params_default_ok : Params.default.ok = true := by decide
theorem test_params_small_ok : small.ok = true := by decide
theorem test_params_refuse_wTs : Params.ok { small with wTs := 0 } = false := by decide
theorem test_params_refuse_idInMax : Params.ok { small with idInMax := 15 } = false := by decide
theorem test_params_refuse_payInMax : Params.ok { small with payInMax := 1023 } = false := by decide
theorem test_params_refuse_decInMax : Params.ok { small with decInMax := 1045 } = false := by decide

theorem test_wf_accepts : Command.wf small ⟨0x1000#16, opsOf (plain [0x61#8]) [] 1⟩ = true := by
  decide
theorem test_wf_refuses_id :
    Command.wf small ⟨0x1000#16, opsOf (plain (List.replicate 17 0)) [] 0⟩ = false := by decide
theorem test_wf_refuses_payload :
    Command.wf { small with payInMax := 2 }
      ⟨0x1000#16, opsOf { plain [0x61#8] with payload := [1, 2, 3] } [] 0⟩ = false := by decide
theorem test_wf_refuses_buf :
    Command.wf { small with decInMax := 2 } ⟨0x1200#16, opsOf (plain []) [1, 2, 3] 0⟩ = false := by
  decide
theorem test_wf_refuses_now : Command.wf small ⟨0x1200#16, opsOf (plain []) [] 2⟩ = false := by
  decide
theorem test_instr_wf :
    ∀ i ∈ [Instr.crcReset, .crcStep 0xFF#8, .crcRead, .enc, .encd, .dec, .sdReset, .sdStep 0x00#8],
    i.wf = true := by decide

/-! ### Small states -/

/-- The state after reset of either mode, with these operands beside the command word. -/
def withOps (d : Bool) (o : Operands) : State := { State.resetFor d with ops := o }

/-- The machine after some bytes have been given to the SD unit since reset. -/
def fed (d : Bool) (bs : List Byte) : State :=
  bs.foldl (fun s b => match execSdStep b s with
    | .next t => { t with responses := [] }
    | .fault _ => s
    | .refused _ => s) (State.resetFor d)

/-- The next state of an outcome. -/
def nextOf : Host.Outcome State Fault Refusal → Option State
  | .next t => some t
  | .fault _ => none
  | .refused _ => none

/-- How a test shows that an outcome is a next state of which something holds. -/
theorem nextOf_spec {o : Host.Outcome State Fault Refusal} {p : State → Prop} [DecidablePred p]
    (h : (nextOf o).map (fun t => decide (p t)) = some true) : ∃ t, o = .next t ∧ p t := by
  cases o with
  | next t => exact ⟨t, rfl, by simpa [nextOf] using h⟩
  | fault f => cases h
  | refused r => cases h

/-- An outcome is determined by its next state, if it has one. -/
theorem nextOf_eq {o : Host.Outcome State Fault Refusal} {t : State} (h : nextOf o = some t) :
    o = .next t := by
  cases o with
  | next u => exact congrArg _ (Option.some.inj h)
  | fault f => cases h
  | refused r => cases h

/-- The last answer to the host in an outcome. -/
def answer (o : Host.Outcome State Fault Refusal) : Option Response :=
  (nextOf o).bind (fun t => t.responses.getLast?)

/-- An SD unit at reset but for its state, count and header. -/
def unitAt (st : SdState) (cnt : BitVec 10) (hdr : Memory) : SdUnit :=
  { SdUnit.reset with state := st, cnt := cnt, hdr := hdr }

/-- A machine with that SD unit. -/
def machineAt (d : Bool) (u : SdUnit) : State := { State.resetFor d with sd := u }

/-- The descriptor of vector V1. -/
def md1 : Descriptor := { plain [0x61#8, 0x62#8, 0x63#8] with payload := [0x2A#8], type := 5#8 }

/-- The frame of vector V1. -/
def frame1 : List Byte :=
  [0x01#8, 0x14#8, 0x03#8, 0x61#8, 0x62#8, 0x63#8, 0x2A#8, 0x64#8, 0xBA#8]

/-- The frame of vector V2: N = 1, no offset, M = 0. -/
def frame2 : List Byte := [0x00#8, 0x00#8, 0x01#8, 0x61#8, 0x76#8, 0xCB#8]

/-- The frame of vector V3: N = 15. -/
def frame3 : List Byte :=
  [0x00#8, 0x00#8, 0x0F#8, 0x61#8, 0x62#8, 0x63#8, 0x64#8, 0x65#8, 0x66#8, 0x67#8, 0x68#8, 0x69#8,
   0x6A#8, 0x6B#8, 0x6C#8, 0x6D#8, 0x6E#8, 0x6F#8, 0x77#8, 0x28#8]

/-- The descriptor of vector V5: every field of the header but M and N at its largest. -/
def md5 : Descriptor :=
  { md1 with payload := [0xDE#8, 0xAD#8], type := 15#8, internal := true, query := true,
             offp := true, offset := 0xBEEF#16, ack := true, ackNum := 7#8 }

/-- The frame of vector V5. -/
def frame5 : List Byte :=
  [0x02#8, 0xFC#8, 0xF3#8, 0x61#8, 0x62#8, 0x63#8, 0xEF#8, 0xBE#8, 0xDE#8, 0xAD#8, 0x8A#8, 0xD4#8]

/-- The frame of vector V16: an offset and no payload. -/
def frame16 : List Byte := [0x00#8, 0x88#8, 0x01#8, 0x78#8, 0x34#8, 0x12#8, 0xD2#8, 0xD2#8]

/-- The message of vector V1, at a time. -/
def msg1 (now : Nat) : Msg :=
  { id := [0x61#8, 0x62#8, 0x63#8], payload := [0x2A#8], type := 5#4, internal := false,
    query := false, offset := none, ack := false, ackNum := 0#3, timestamp := now }

/-- The message of vector V5, at a time. -/
def msg5 (now : Nat) : Msg :=
  { id := [0x61#8, 0x62#8, 0x63#8], payload := [0xDE#8, 0xAD#8], type := 15#4, internal := true,
    query := true, offset := some 0xBEEF#16, ack := true, ackNum := 7#3, timestamp := now }

/-- The state in which a command with that word stands before the block, beside these operands. -/
def facing (w : U16) (o : Operands) : State := { State.reset with pending := [.command ⟨w, o⟩] }

/-! ### The commands, one step each -/

-- 95_test_vectors.md 2.1
theorem test_crcStep_first : crcStep 0xFFFF#16 0x01#8 = 0xF1D1#16 := by decide +kernel
theorem test_crcStep_1234 : crcStep 0x1234#16 0x56#8 = 0x3C40#16 := by decide +kernel
theorem test_crcReset : (nextOf (exec .crcReset { State.reset with crcAcc := 0x1234#16 })).map
    (fun t => t.crcAcc) = some 0xFFFF#16 := by decide +kernel
theorem test_crcRead : answer (exec .crcRead { State.reset with crcAcc := 0xBA64#16 }) =
    some (.value 0xBA64#16) := by decide +kernel
-- 2.3: T[0x9E]
theorem test_crcTable : crcTable 0x9E#8 = 0x6277#16 ∧ crcStepByShifts 0x9E00#16 0 = 0x6277#16 := by
  decide +kernel

-- 2.4: V1 and V5; 2.5: everything wrong, and the range check before the consistency check
theorem test_enc_V1 : answer (exec .enc (withOps false (opsOf md1 [] 0))) = some (.frame frame1) := by
  decide +kernel
theorem test_enc_order : answer (exec .enc (withOps false
    (opsOf { plain [] with type := 16#8, ackNum := 8#8 } [] 0))) =
    some (.error (.validation .type 15)) := by decide +kernel
theorem test_encd_V5 : answer (exec .encd (withOps true (opsOf md5 [] 0))) =
    some (.frame ([0x01#8] ++ frame5 ++ [0x04#8])) := by decide +kernel
theorem test_encd_ackNum : answer (exec .encd (withOps true
    (opsOf { plain [0x61#8] with ackNum := 8#8 } [] 0))) =
    some (.error (.validation .ackNum 7)) := by decide +kernel

-- 2.4, 2.6
theorem test_dec_V5 : answer (exec .dec (withOps false (opsOf (plain []) frame5 77))) =
    some (.message (msg5 77)) := by decide +kernel
theorem test_dec_short : ∀ p ∈ [([], BlockError.length), ([0x00#8], .length),
    ([0x00#8, 0x00#8], .checksum), ([0xFF#8, 0xFF#8], .length), ([0x00#8, 0xF0#8, 0xE1#8], .length)],
    answer (exec .dec (withOps false (opsOf (plain []) p.1 0))) = some (.error p.2) := by
  decide +kernel

-- 2.7, the trace of V1 in non-delimited mode, and abandoning it (43_streaming.md R142)
theorem test_sdStep_msgid : (fed false (frame1.take 5)).sd =
    { state := .msgid, cnt := 2, crc := 0x47A4#16, hdr := [(0, 0x01#8), (1, 0x14#8), (2, 0x03#8)],
      id := [(0, 0x61#8), (1, 0x62#8)], off := [], pay := [], ck0 := 0 } := by decide +kernel
theorem test_sdStep_emits_V5 : answer (exec (.sdStep 0x04#8)
    { fed true ([0x01#8] ++ frame5) with ops := opsOf (plain []) [] 9 }) =
    some (.stream (some (msg5 9)) none) := by decide +kernel
theorem test_sdReset : (nextOf (exec .sdReset (fed false (frame1.take 5)))).map (fun t => t.sd) =
    some SdUnit.reset := by decide +kernel

-- 2.2: a reserved word; 10_state.md R43: hardware reset
theorem test_step_reserved : (nextOf (step (facing 0x0300#16 noOperands))).map (fun t => t.responses) =
    some [.error .illegalCommand] := by decide +kernel
theorem test_step_hardware_reset : nextOf (step { fed true [0x01#8, 0x05#8] with
    crcAcc := 0x0123#16, pending := [.reset] }) = some (State.resetFor true) := by decide +kernel
theorem test_step_withFetchWord : (nextOf (Sys2Proof.core.step
    (State.reset.withFetchWord 16 0x0101))).map (fun t => t.crcAcc) = some 0xF1D1#16 := by
  decide +kernel

/-! ### Witnesses: decoding and one step -/

theorem witness_EncodeThenDecodeGivesTheCommand : (Instr.sdStep 0xFF#8).wf = true := by
  decide +kernel

theorem witness_StepRunsTheDecodedCommand :
    ((facing 0x21FF#16 noOperands).pending = .command ⟨0x21FF#16, noOperands⟩ :: [] ∧
      decode 0x21FF#16 = .ok (.sdStep 0xFF#8) ∧ (Instr.sdStep 0xFF#8).wf = true) ∧
    decodeTableWord 16 0x12FF = some .dec := by decide +kernel

theorem witness_StepAnswersReservedWordsWithIllegalCommand :
    (facing 0x0300#16 noOperands).pending = .command ⟨0x0300#16, noOperands⟩ :: [] ∧
      decode 0x0300#16 = .error (.reservedOpcode 0x03#8) := by decide +kernel

theorem witness_StepOnHardwareResetOrNothing :
    ({ fed true [0x01#8] with pending := [.reset, .reset] } : State).pending = .reset :: [.reset] ∧
      (fed true [0x01#8]).pending = [] := by decide +kernel

theorem witness_OneByteDamageChangesTheChecksum : (0x00#8 : Byte) ≠ 0x80#8 := by decide +kernel

theorem witness_UnitsAreWrittenByTheirOwnCommandsOnly :
    (∃ t, exec .dec (fed true [0x01#8, 0x05#8]) = .next t) ∧
      Instr.dec ≠ .crcReset ∧ (∀ b, Instr.dec ≠ .crcStep b) ∧
      Instr.dec ≠ .sdReset ∧ (∀ b, Instr.dec ≠ .sdStep b) :=
  ⟨⟨_, rfl⟩, nofun, nofun, nofun, nofun⟩

/-! ### Witnesses: the codec -/

theorem witness_EncFollowsItsPseudocode :
    (plain [0x00#8]).Encodable ∧ md5.Encodable ∧
    (plain (List.replicate 15 0xFF#8)).Encodable ∧
    ¬ ({ plain [0x61#8] with type := 16#8 } : Descriptor).Encodable ∧
    ¬ (plain []).Encodable ∧ ¬ (plain (List.replicate 16 0x61#8)).Encodable ∧
    ¬ ({ plain [0x61#8] with ack := true, ackNum := 8#8 } : Descriptor).Encodable ∧
    ¬ ({ plain [0x61#8] with ackNum := 1#8 } : Descriptor).Encodable ∧
    (withOps false (opsOf md1 [] 0)).ops.md =
      { id := [0x61#8, 0x62#8, 0x63#8], payload := [0x2A#8], type := 5#8, internal := false,
        query := false, offp := false, offset := 0, ack := false, ackNum := 0 } := by decide +kernel

theorem witness_payload_bounds :
    ({ plain [0x61#8] with payload := List.replicate 1023 0 } : Descriptor).Encodable ∧
    ¬ ({ plain [0x61#8] with payload := List.replicate 1024 0 } : Descriptor).Encodable :=
  ⟨⟨by decide +kernel, by decide +kernel, by decide +kernel, (List.length_replicate ..).le,
    by decide +kernel, by decide +kernel⟩,
    fun h => absurd h.2.2.2.1 (by rw [List.length_replicate]; decide)⟩

theorem witness_EncdWrapsWhatEncReturns :
    (withOps true (opsOf md1 [] 0)).ops.md.Encodable ∧
      ¬ (withOps true (opsOf (plain []) [] 0)).ops.md.Encodable := by decide +kernel

theorem witness_EncodedFrameHasTheWireLayout :
    (withOps false (opsOf md1 [] 0)).ops.md.Encodable ∧
      (withOps false (opsOf md5 [] 0)).ops.md.Encodable := by decide +kernel

theorem witness_EncodedFrameLength : (withOps true (opsOf md5 [] 0)).ops.md.Encodable := by
  decide +kernel

theorem witness_DescriptorsWithTheSameFrame :
    (withOps false (opsOf (plain [0x61#8]) [] 0)).ops.md.Encodable ∧
      (withOps false (opsOf { plain [0x61#8] with ack := true } [] 0)).ops.md.Encodable := by
  decide +kernel

/-- Whether `DEC` would report an error, step by step (42_decode.md R126). -/
def failing (l : List Byte) : List Bool :=
  let ph := (byteAt l 0).toNat + 256 * (byteAt l 1).toNat
  let idLen := (byteAt l 2).toNat % 16
  [decide (l.length < 2),
   decide ((crc16 (l.take (l.length - 2))).toNat ≠
     (byteAt l (l.length - 2)).toNat + 256 * (byteAt l (l.length - 1)).toNat),
   decide (l.length < 5), decide (idLen = 0),
   decide (l.length ≠ 5 + idLen + 2 * (ph / 2 ^ 15) + ph % 2 ^ 10)]

/-- Each of the five conditions first: too short; a wrong checksum; 2 bytes with a good one; N = 0;
one payload byte too many. -/
theorem witness_DecReportsTheFirstFailingStep :
    (failing [0x00#8]).head? = some true ∧
    (failing [0x00#8, 0x00#8]).take 2 = [false, true] ∧
    (failing [0xFF#8, 0xFF#8]).take 3 = [false, false, true] ∧
    (failing (sealBody [0x00#8, 0x00#8, 0x10#8])).take 4 = [false, false, false, true] ∧
    failing (sealBody [0x00#8, 0x00#8, 0x01#8, 0x61#8, 0x00#8]) =
      [false, false, false, false, true] := by decide +kernel

theorem witness_DecReturnsTheMessageOfAnAcceptedInput :
    ∀ l ∈ [frame1, frame2, frame3, frame5, frame16],
      failing l = [false, false, false, false, false] ∧ 5 ≤ l.length := by decide +kernel

theorem witness_DecodeOfEncodeReturnsTheMessage :
    (withOps false (opsOf md5 [] 0)).ops.md.Encodable ∧
      (withOps true (opsOf (plain []) frame5 7)).ops.buf = frame5 ∧
      encodeFrame md5 = .ok frame5 := by decide +kernel

theorem witness_EncodeOfDecodeReturnsTheInput :
    exec .dec (withOps false (opsOf (plain []) frame5 7)) =
      .next { withOps false (opsOf (plain []) frame5 7) with responses := [] ++ [.message (msg5 7)] } ∧
    (withOps false (opsOf md5 [] 0)).ops.md =
      { id := (msg5 7).id, payload := (msg5 7).payload, type := (msg5 7).type.setWidth 8,
        internal := (msg5 7).internal, query := (msg5 7).query, offp := (msg5 7).offset.isSome,
        offset := (msg5 7).offset.getD 0, ack := (msg5 7).ack,
        ackNum := (msg5 7).ackNum.setWidth 8 } :=
  ⟨nextOf_eq (by decide +kernel), by decide +kernel⟩

theorem witness_OneByteDamageIsAChecksumError :
    md1.Encodable ∧ encodeFrame md1 = .ok frame1 ∧
      (0 < frame1.length ∧ (0x00#8 : Byte) ≠ byteAt frame1 0) ∧
      (8 < frame1.length ∧ (0xBB#8 : Byte) ≠ byteAt frame1 8 ∧
        (withOps false (opsOf (plain []) (frame1.set 8 0xBB#8) 0)).ops.buf =
          frame1.set 8 0xBB#8) := by decide +kernel

theorem witness_CodecCommandsArePure :
    (fed true [0x01#8, 0x05#8]).ops = (State.resetFor false).ops ∧
      fed true [0x01#8, 0x05#8] ≠ State.resetFor false := by decide +kernel

/-! ### Witnesses: the SD unit, state by state -/

theorem witness_SdResetClearsTheUnit :
    State.reset.delim = false ∧ State.reset.sd = SdUnit.reset := by decide +kernel

theorem witness_SdStepIdleTakesTheFirstHeaderByte :
    (fed false []).sd.BuffersOk ∧ (fed false []).sd.state = .idle ∧ (fed false []).delim = false := by
  decide +kernel

theorem witness_SdStepIdleIgnoresNoise :
    (fed true [0x00#8]).sd.state = .idle ∧ (fed true [0x00#8]).delim = true ∧
      (fed true [0x00#8]).sd = SdUnit.reset := by decide +kernel

/-- The counts 0 (delimited mode only), 1 and 2. -/
theorem witness_SdStepTakesHeaderBytes :
    ∀ p ∈ [(fed true [0x01#8], 0), (fed false [0x01#8], 1), (fed false [0x01#8, 0x14#8], 2)],
      p.1.sd.BuffersOk ∧ p.1.sd.state = .hdr ∧ p.1.sd.cnt.toNat = p.2 ∧ p.1.sd.cnt.toNat ≤ 2 := by
  decide +kernel

/-- The first of several identifier bytes, the only one, and the fifteenth. -/
theorem witness_SdStepTakesIdentifierBytes :
    ∀ p ∈ [(fed false (frame1.take 3), 0, 3), (fed false (frame2.take 3), 0, 1),
      (fed false (frame3.take 17), 14, 15)],
      p.1.sd.BuffersOk ∧ p.1.sd.state = .msgid ∧ p.1.sd.cnt.toNat = p.2.1 ∧
        p.1.sd.cnt.toNat < 15 ∧ p.1.sd.header.idLen.toNat = p.2.2 := by decide +kernel

/-- Both offset bytes, the second with M = 2 and with M = 0; and a step that enters the state. -/
theorem witness_SdStepTakesOffsetBytes :
    (∀ p ∈ [(fed false (frame5.take 6), 0, 2), (fed false (frame5.take 7), 1, 2),
      (fed false (frame16.take 5), 1, 0)],
      p.1.sd.BuffersOk ∧ p.1.sd.state = .offset ∧ p.1.sd.cnt.toNat = p.2.1 ∧
        p.1.sd.cnt.toNat < 2 ∧ p.1.sd.header.payLen.toNat = p.2.2) ∧
    (∃ t, exec (.sdStep 0x78#8) (fed false (frame16.take 3)) = .next t ∧
      (fed false (frame16.take 3)).sd.state ≠ .offset ∧ t.sd.state = .offset) :=
  ⟨by decide +kernel, nextOf_spec (by decide +kernel)⟩

/-- The first of two payload bytes, the last of two, and the 1023rd; and a step that enters the
state. -/
theorem witness_SdStepTakesPayloadBytes :
    (∀ p ∈ [(fed false (frame5.take 8), 0, 2), (fed false (frame5.take 9), 1, 2),
      (machineAt false (unitAt .payload 1022 [(0, 0xFF#8), (1, 0x03#8), (2, 0x01#8)]), 1022, 1023)],
      p.1.sd.BuffersOk ∧ p.1.sd.state = .payload ∧ p.1.sd.cnt.toNat = p.2.1 ∧
        p.1.sd.cnt.toNat < 1023 ∧ p.1.sd.header.payLen.toNat = p.2.2) ∧
    (∃ t, exec (.sdStep 0xBE#8) (fed false (frame5.take 7)) = .next t ∧
      (fed false (frame5.take 7)).sd.state ≠ .payload ∧ t.sd.state = .payload) :=
  ⟨by decide +kernel, nextOf_spec (by decide +kernel)⟩

/-- Either byte of the checksum; in either mode, the second for a good and for a bad checksum. -/
theorem witness_SdStepComparesTheChecksum :
    ((fed false (frame1.take 7)).sd.state = .checksum ∧ (fed false (frame1.take 7)).sd.cnt = 0) ∧
    ∀ s ∈ [fed false (frame1.take 8), fed true ([0x01#8] ++ frame1.take 8)],
      s.sd.state = .checksum ∧ s.sd.cnt = 1 ∧
        s.sd.ck0.toNat + 256 * (0xBA#8).toNat = s.sd.crc.toNat ∧
        s.sd.ck0.toNat + 256 * (0xBB#8).toNat ≠ s.sd.crc.toNat := by decide +kernel

theorem witness_SdStepChecksTheEndDelimiter :
    (fed true ([0x01#8] ++ frame1)).sd.state = .eot := by decide +kernel

theorem witness_EmittedMessageIsReadFromTheBuffers :
    ((fed true ([0x01#8] ++ frame5)).sd.state = .eot ∧ (0x04#8 : Byte) = 0x04#8) ∧
    ((fed false (frame5.take 11)).sd.state = .checksum ∧ (fed false (frame5.take 11)).sd.cnt = 1 ∧
      (fed false (frame5.take 11)).delim = false ∧
      (fed false (frame5.take 11)).sd.ck0.toNat + 256 * (0xD4#8).toNat =
        (fed false (frame5.take 11)).sd.crc.toNat) := by decide +kernel

/-- A message and an error; and a command that leaves the accumulator. -/
theorem witness_SdUnitResetsItselfAfterEveryReport :
    (∃ t m, exec (.sdStep 0xBA#8) (fed false (frame1.take 8)) = .next t ∧
      t.responses = (fed false (frame1.take 8)).responses ++ [.stream (some m) none]) ∧
    (∃ t, exec (.sdStep 0xBB#8) (fed false (frame1.take 8)) = .next t ∧
      t.responses = (fed false (frame1.take 8)).responses ++ [.stream none (some .checksum)]) ∧
    (∃ t, exec .crcRead State.reset = .next t) ∧ Instr.crcRead ≠ .crcReset ∧
      ∀ b, Instr.crcRead ≠ .crcStep b :=
  ⟨(nextOf_spec (p := fun t => t.responses =
    (fed false (frame1.take 8)).responses ++ [.stream (some (msg1 0)) none])
    (by decide +kernel)).imp fun _ h => ⟨msg1 0, h⟩, nextOf_spec (by decide +kernel), ⟨_, rfl⟩,
    nofun, nofun⟩

/-- A step that leads to a later state, one that counts, one that changes nothing. -/
theorem witness_SdStateMovesForward :
    (∃ t, exec (.sdStep 0x03#8) (fed false (frame1.take 2)) = .next t ∧
      t.responses = (fed false (frame1.take 2)).responses ++ [.stream none none]) ∧
    (∃ t, exec (.sdStep 0x14#8) (fed false (frame1.take 1)) = .next t ∧
      t.responses = (fed false (frame1.take 1)).responses ++ [.stream none none]) ∧
    (∃ t, exec (.sdStep 0x00#8) (fed true []) = .next t ∧
      t.responses = (fed true []).responses ++ [.stream none none]) :=
  ⟨nextOf_spec (by decide +kernel), nextOf_spec (by decide +kernel),
    nextOf_spec (by decide +kernel)⟩

/-! ### Witnesses: the invariant, in every state of the SD unit -/

/-- The clauses of the invariant as one proposition that can be decided; `hi` is a high checksum byte
that completes the one received, in state `EOT`. -/
theorem inv_of (hi : Byte) {s : State}
    (h : s.sd.BuffersOk ∧ (s.sd.state = .idle → s.sd = SdUnit.reset) ∧
      (s.sd.state = .hdr → s.sd.cnt.toNat ≤ 2 ∧ (s.delim = false → 1 ≤ s.sd.cnt.toNat)) ∧
      (s.sd.state = .msgid →
        1 ≤ s.sd.header.idLen.toNat ∧ s.sd.cnt.toNat < s.sd.header.idLen.toNat) ∧
      (s.sd.state = .offset → s.sd.header.offp = true ∧ s.sd.cnt.toNat ≤ 1) ∧
      (s.sd.state = .payload →
        1 ≤ s.sd.header.payLen.toNat ∧ s.sd.cnt.toNat < s.sd.header.payLen.toNat) ∧
      (s.sd.state = .checksum → s.sd.cnt.toNat ≤ 1) ∧
      (s.sd.state = .eot → s.delim = true ∧ s.sd.cnt = 0 ∧ le16 s.sd.ck0 hi = s.sd.crc) ∧
      (s.sd.HeaderComplete → 1 ≤ s.sd.header.idLen.toNat) ∧ s.sd.crc = crc16 s.sd.taken) :
    s.Inv :=
  let ⟨h1, h2, h3, h4, h5, h6, h7, h8, h9, h10⟩ := h
  ⟨h1, h2, h3, h4, h5, h6, h7, fun e => ⟨(h8 e).1, (h8 e).2.1, hi, (h8 e).2.2⟩, h9, h10⟩

theorem witness_inv_idle : (fed true [0x00#8]).Inv :=
  inv_of 0xBA#8 (by decide +kernel)
theorem witness_inv_hdr : (fed true [0x01#8]).Inv :=
  inv_of 0xBA#8 (by decide +kernel)
theorem witness_inv_hdr_last : (fed false [0x01#8, 0x14#8]).Inv :=
  inv_of 0xBA#8 (by decide +kernel)
theorem witness_inv_msgid : (fed false (frame3.take 17)).Inv :=
  inv_of 0xBA#8 (by decide +kernel)
theorem witness_inv_offset : (fed false (frame5.take 7)).Inv :=
  inv_of 0xBA#8 (by decide +kernel)
theorem witness_inv_payload : (fed false (frame5.take 9)).Inv :=
  inv_of 0xBA#8 (by decide +kernel)
theorem witness_inv_checksum : (fed false (frame1.take 8)).Inv :=
  inv_of 0xBA#8 (by decide +kernel)
theorem witness_inv_eot : (fed true ([0x01#8] ++ frame1)).Inv :=
  inv_of 0xBA#8 (by decide +kernel)

theorem witness_EveryStepAnswersUnderTheInvariant : (fed true ([0x01#8] ++ frame1)).Inv :=
  witness_inv_eot

theorem witness_InvariantIsKeptByEveryStep :
    (fed false (frame3.take 17)).Inv ∧
      ∃ t, step ({ fed false (frame3.take 17) with
        pending := [.command ⟨0x216F#16, noOperands⟩] }) = .next t ∧ t.sd.state = .checksum :=
  ⟨witness_inv_msgid, nextOf_spec (by decide +kernel)⟩

/-- Each state at the last count inside its buffer and at the first outside. -/
theorem witness_SdStepStopsOnlyOutsideABuffer :
    ∀ p ∈ [(SdState.hdr, 3), (.msgid, 15), (.offset, 2), (.payload, 1023)],
      (machineAt true (unitAt p.1 (BitVec.ofNat 10 (p.2 - 1)) [])).sd.state = p.1 ∧
      ¬ p.2 ≤ (machineAt true (unitAt p.1 (BitVec.ofNat 10 (p.2 - 1)) [])).sd.cnt.toNat ∧
      (machineAt true (unitAt p.1 (BitVec.ofNat 10 p.2) [])).sd.state = p.1 ∧
      p.2 ≤ (machineAt true (unitAt p.1 (BitVec.ofNat 10 p.2) [])).sd.cnt.toNat := by
  decide +kernel

/-- A bad byte in `EOT`, the report of it, and the step that enters the state. -/
theorem witness_FramingErrorOnlyAfterAGoodChecksum :
    ((fed true ([0x01#8] ++ frame1)).Inv ∧ (fed true ([0x01#8] ++ frame1)).sd.state = .eot ∧
      (0x05#8 : Byte) ≠ 0x04#8) ∧
    (∃ t, exec (.sdStep 0x05#8) (fed true ([0x01#8] ++ frame1)) = .next t ∧
      t.responses = (fed true ([0x01#8] ++ frame1)).responses ++ [.stream none (some .framing)] ∧
      reportedError (.stream none (some .framing)) = some .framing) ∧
    (∃ t, exec (.sdStep 0xBA#8) (fed true ([0x01#8] ++ frame1.take 8)) = .next t ∧
      (fed true ([0x01#8] ++ frame1.take 8)).sd.state ≠ .eot ∧ t.sd.state = .eot) :=
  ⟨⟨witness_inv_eot, by decide +kernel, by decide +kernel⟩, nextOf_spec (by decide +kernel),
    nextOf_spec (by decide +kernel)⟩

/-! ### Witnesses: runs -/

/-- The bytes as `SD.STEP` commands, each with the time `now`. -/
def feedOf (now : Nat) (bs : List Byte) : List Command :=
  bs.map (fun b => ⟨encode (.sdStep b), opsOf (plain []) [] now⟩)

/-- A frame of six bytes, and one with an offset. -/
theorem witness_StreamingEqualsOneShotUndelimited :
    (fed false []).delim = false ∧ (fed false []).sd = SdUnit.reset ∧
      decodeFrame frame2 3 = .ok { msg1 3 with id := [0x61#8], payload := [], type := 0#4 } ∧
      IsFeed (feedOf 3 frame2) frame2 ∧
      LastNow (feedOf 3 frame2) 3 ∧
      decodeFrame frame5 3 = .ok (msg5 3) ∧ IsFeed (feedOf 3 frame5) frame5 ∧
      LastNow (feedOf 3 frame5) 3 :=
  ⟨by decide +kernel, by decide +kernel, by decide +kernel, by decide +kernel, by decide +kernel,
    by decide +kernel, by decide +kernel, by decide +kernel⟩

theorem witness_StreamingEqualsOneShotDelimited :
    (fed true []).delim = true ∧ (fed true []).sd = SdUnit.reset ∧
      decodeFrame frame1 3 = .ok (msg1 3) ∧
      IsFeed (feedOf 3 ([0x01#8] ++ frame1 ++ [0x04#8])) ([0x01#8] ++ frame1 ++ [0x04#8]) ∧
      LastNow (feedOf 3 ([0x01#8] ++ frame1 ++ [0x04#8])) 3 :=
  ⟨by decide +kernel, by decide +kernel, by decide +kernel, by decide +kernel, by decide +kernel⟩

/-- In either mode, in the middle of a frame. -/
theorem witness_ResetMidFrameLeavesNoResidue :
    decodeFrame frame1 3 = .ok (msg1 3) ∧ decode 0x2000#16 = .ok .sdReset ∧
    (∀ s ∈ [fed false (frame5.take 7), fed true ([0x01#8] ++ frame5.take 7)],
      s.sd ≠ SdUnit.reset ∧
      IsFeed (feedOf 3 (if s.delim then [0x01#8] ++ frame1 ++ [0x04#8] else frame1))
        (if s.delim then [0x01#8] ++ frame1 ++ [0x04#8] else frame1) ∧
      LastNow (feedOf 3 (if s.delim then [0x01#8] ++ frame1 ++ [0x04#8] else frame1)) 3) :=
  by decide +kernel

theorem witness_NoiseIsSkipped :
    (fed true []).delim = true ∧ (fed true []).sd = SdUnit.reset ∧
      IsFeed (feedOf 0 [0x00#8, 0x02#8, 0x04#8]) [0x00#8, 0x02#8, 0x04#8] ∧
      ∀ b ∈ [0x00#8, 0x02#8, 0x04#8], b ≠ 0x01#8 := by decide +kernel

/-- A last header byte, a step inside the frame, a message, a framing error and a checksum error. -/
theorem witness_BytesLeftOfAFrameAttempt :
    ((fed false [0x01#8, 0x14#8]).Inv ∧ (fed false [0x01#8, 0x14#8]).sd.cnt.toNat = 2 ∧
      answer (exec (.sdStep 0x03#8) (fed false [0x01#8, 0x14#8])) = some (.stream none none)) ∧
    ((fed false (frame3.take 17)).Inv ∧ (fed false (frame3.take 17)).sd.HeaderComplete ∧
      answer (exec (.sdStep 0x6F#8) (fed false (frame3.take 17))) = some (.stream none none)) ∧
    ((fed false (frame1.take 8)).Inv ∧ answer (exec (.sdStep 0xBA#8) (fed false (frame1.take 8))) =
      some (.stream (some (msg1 0)) none)) ∧
    ((fed true ([0x01#8] ++ frame1)).Inv ∧
      answer (exec (.sdStep 0x05#8) (fed true ([0x01#8] ++ frame1))) =
        some (.stream none (some .framing))) ∧
    ((fed false (frame1.take 8)).Inv ∧ answer (exec (.sdStep 0xBB#8) (fed false (frame1.take 8))) =
      some (.stream none (some .checksum))) :=
  ⟨⟨witness_inv_hdr_last, by decide +kernel⟩, ⟨witness_inv_msgid, by decide +kernel⟩,
    ⟨witness_inv_checksum, by decide +kernel⟩, ⟨witness_inv_eot, by decide +kernel⟩,
    ⟨witness_inv_checksum, by decide +kernel⟩⟩

/-- The last identifier byte of vector V3 awaited, with stray bytes where none has been written. -/
def stray : State :=
  { fed false (frame3.take 17) with
    sd := { (fed false (frame3.take 17)).sd with off := [(1, 0x55#8)], pay := [(0, 0xAA#8)] } }

theorem witness_inv_stray : stray.Inv :=
  inv_of 0xBA#8 (by decide +kernel)

theorem witness_OutcomesIgnoreUnwrittenBytes :
    (fed false (frame3.take 17)).Inv ∧ stray.Inv ∧ fed false (frame3.take 17) ≠ stray ∧
      (fed false (frame3.take 17)).crcAcc = stray.crcAcc ∧
      (fed false (frame3.take 17)).delim = stray.delim ∧
      (fed false (frame3.take 17)).ops = stray.ops ∧
      SameSoFar (fed false (frame3.take 17)).sd stray.sd :=
  ⟨witness_inv_msgid, witness_inv_stray, by unfold SameSoFar; decide +kernel⟩

/-! ### Witnesses: the whole machine -/

theorem witness_EveryCommandGivesOneResponseOfItsKind :
    ∀ i ∈ [Instr.crcReset, .crcStep 0x2A#8, .crcRead, .enc, .encd, .dec, .sdReset, .sdStep 0x01#8],
      (nextOf (exec i State.reset)).isSome = true := by decide +kernel

/-- An error of `SD.STEP`, one of another command, and a reserved word. -/
theorem witness_ErrorsChangeNothingButTheSdUnit :
    (∃ t, exec (.sdStep 0xBB#8) (fed false (frame1.take 8)) = .next t ∧
      t.responses = (fed false (frame1.take 8)).responses ++ [.stream none (some .checksum)] ∧
      reportedError (.stream none (some .checksum)) = some .checksum) ∧
    (∃ t, exec .dec State.reset = .next t ∧ t.responses = State.reset.responses ++ [.error .length] ∧
      reportedError (.error .length) = some .length) ∧
    ((facing 0x0300#16 noOperands).pending = .command ⟨0x0300#16, noOperands⟩ :: [] ∧
      decode 0x0300#16 = .error (.reservedOpcode 0x03#8)) :=
  ⟨nextOf_spec (by decide +kernel), nextOf_spec (by decide +kernel), by decide +kernel⟩

/-- A message of `SD.STEP`. -/
theorem witness_DeliveredMessagesAreLegal :
    (fed false (frame1.take 8)).Inv ∧
      ∃ t, exec (.sdStep 0xBA#8) (fed false (frame1.take 8)) = .next t ∧
        t.responses = (fed false (frame1.take 8)).responses ++ [.stream (some (msg1 0)) none] ∧
        producedMessage (.stream (some (msg1 0)) none) = some (msg1 0) :=
  ⟨witness_inv_checksum, nextOf_spec (by decide +kernel)⟩

theorem witness_HeldErrorCodesAreNeverReturned :
    ∃ t, step (facing 0x0300#16 noOperands) = .next t ∧
      t.responses = (facing 0x0300#16 noOperands).responses ++ [.error .illegalCommand] :=
  nextOf_spec (by decide +kernel)

end Sys2Proof.Tests
end

section
/-! The wire layout of the frames `ENC` returns (30_encoding.md part A). -/

namespace Sys2Proof.Machine

/-! ### A sealed body: the body, then its checksum (30_encoding.md R71) -/

section Seal
variable (body : List Byte)

@[simp] theorem sealBody_length : (sealBody body).length = body.length + 2 := by
  simp [sealBody, le16Bytes]

theorem sealBody_take : (sealBody body).take ((sealBody body).length - 2) = body := by
  simp [sealBody, le16Bytes]

theorem sealBody_checksum_lo :
    byteAt (sealBody body) ((sealBody body).length - 2) = lo8 (crc16 body) := by
  simp [byteAt, sealBody, le16Bytes]

theorem sealBody_checksum_hi :
    byteAt (sealBody body) ((sealBody body).length - 1) = hi8 (crc16 body) := by
  simp [byteAt, sealBody, le16Bytes]

end Seal

theorem lo8_add_hi8 (v : U16) : (lo8 v).toNat + 256 * (hi8 v).toNat = v.toNat := by
  rw [← le16_toNat, le16_lo8_hi8]

/-! ### The header bytes of an encoded frame (30_encoding.md R66, R67) -/

section FrameHeader
variable (md : Descriptor)

theorem byteAt_frame_zero : byteAt (sealBody (frameBody md)) 0 =
    lo8 (packPh md.payload.length md.type md.internal md.offp) := rfl

theorem byteAt_frame_one : byteAt (sealBody (frameBody md)) 1 =
    hi8 (packPh md.payload.length md.type md.internal md.offp) := rfl

theorem byteAt_frame_two : byteAt (sealBody (frameBody md)) 2 =
    packMh md.id.length md.query md.ackNum := rfl

end FrameHeader

/-- The bit fields of the packed payloadHeader, as quotients and remainders (30_encoding.md R66). -/
theorem packPh_fields {payLen : Nat} {type : Byte} (internal offp : Bool) (hm : payLen ≤ 1023)
    (ht : type.toNat ≤ 15) :
    let ph := (packPh payLen type internal offp).toNat
    ph % 2 ^ 10 = payLen ∧ ph / 2 ^ 10 % 2 ^ 4 = type.toNat ∧ ph / 2 ^ 14 % 2 = bit internal ∧
      ph / 2 ^ 15 = bit offp := by
  have hi := bit_lt internal
  have ho := bit_lt offp
  simp only [packPh_toNat internal offp hm ht]
  omega

/-- The bit fields of the packed messageHeader, as quotients and remainders (30_encoding.md R67). -/
theorem packMh_fields {idLen : Nat} (query : Bool) {ackNum : Byte} (hn : idLen ≤ 15)
    (ha : ackNum.toNat ≤ 7) :
    let mh := (packMh idLen query ackNum).toNat
    mh % 2 ^ 4 = idLen ∧ mh / 2 ^ 4 % 2 = bit query ∧ mh / 2 ^ 5 = ackNum.toNat := by
  have hq := bit_lt query
  simp only [packMh_toNat query hn ha]
  omega

/-- The six fields of an encoded frame, the header and the checksum read back from the frame by
index (30_encoding.md R65). -/
theorem frame_eq_fields (md : Descriptor) :
    let f := sealBody (frameBody md)
    f = [byteAt f 0, byteAt f 1, byteAt f 2] ++ md.id ++
      (if md.offp then [lo8 md.offset, hi8 md.offset] else []) ++ md.payload ++
      [byteAt f (f.length - 2), byteAt f (f.length - 1)] := by
  intro f
  simp only [f, sealBody_checksum_lo, sealBody_checksum_hi, byteAt_frame_zero, byteAt_frame_one,
    byteAt_frame_two]
  rfl

/-- The last two bytes of a sealed body are the checksum of all before them, low byte first
(30_encoding.md R71). -/
theorem sealBody_ends_in_checksum (body : List Byte) :
    let f := sealBody body
    (byteAt f (f.length - 2)).toNat + 256 * (byteAt f (f.length - 1)).toNat =
      (crc16 (f.take (f.length - 2))).toNat := by
  intro f
  rw [sealBody_checksum_lo, sealBody_checksum_hi, sealBody_take, lo8_add_hi8]

/-- What `ENC` does with a descriptor it accepts. -/
theorem exec_enc_encodable {s : State} (h : s.ops.md.Encodable) :
    exec .enc s = .next (s.respond (.frame (sealBody (frameBody s.ops.md)))) :=
  execEnc_ok (encodeFrame_encodable h)

/-- Settles O20: the frame is the sealed body, whose header bytes are the packed headers. -/
theorem encodedFrameHasTheWireLayout : Obligations.EncodedFrameHasTheWireLayout := by
  intro s h
  have ⟨hType, _, hId, hPayload, hAck, _⟩ := h
  obtain ⟨phLen, phType, phInternal, phOffp⟩ :=
    packPh_fields s.ops.md.internal s.ops.md.offp hPayload hType
  obtain ⟨mhLen, mhQuery, mhAck⟩ := packMh_fields s.ops.md.query hId hAck
  refine ⟨_, exec_enc_encodable h, ?_⟩
  simp only [byteAt_frame_zero, byteAt_frame_one, byteAt_frame_two, lo8_add_hi8]
  exact ⟨phLen, phType, phInternal, phOffp, mhLen, mhQuery, mhAck, frame_eq_fields s.ops.md,
    sealBody_ends_in_checksum _⟩

end Sys2Proof.Machine
end

section
/-! The checksum function as arithmetic over the two-element field (40_crc16.md R104): a round is
linear and can be undone, and so are eight of them. -/

namespace Sys2Proof.Machine

/-! ### The two halves of a word -/

section Halves
variable (a b : U16)

theorem lo8_xor : lo8 (a ^^^ b) = lo8 a ^^^ lo8 b := BitVec.extractLsb'_xor

theorem hi8_xor : hi8 (a ^^^ b) = hi8 a ^^^ hi8 b := BitVec.extractLsb'_xor

theorem lo8_shiftLeft_eight : lo8 (a <<< 8) = 0 := by
  ext i hi
  simp [lo8, hi]

theorem hi8_shiftLeft_eight : hi8 (a <<< 8) = lo8 a := by
  ext i hi
  simp [hi8, lo8, show 8 + i < 16 by omega, BitVec.getLsbD_eq_getElem (show i < 16 by omega)]

/-- A byte moved into the high half. -/
theorem setWidth_shiftLeft_eight (c : Byte) : c.setWidth 16 <<< 8 = le16 0 c := by simp [le16]

/-- Moving a word up by a byte loses its high half. -/
theorem lo8_shiftLeft : (lo8 a).setWidth 16 <<< 8 = a <<< 8 := by
  rw [setWidth_shiftLeft_eight, ← hi8_shiftLeft_eight, ← lo8_shiftLeft_eight a, le16_lo8_hi8]

/-- The halves do not overlap, so adding them puts the word together. -/
theorem lo8_xor_hi8_shiftLeft : (lo8 a).setWidth 16 ^^^ (hi8 a).setWidth 16 <<< 8 = a := by
  ext i hi
  by_cases h : i < 8
  · simp [lo8, h, BitVec.getLsbD_eq_getElem hi]
  · simp [lo8, hi8, h, show i - 8 < 8 by omega, show 8 + (i - 8) = i by omega,
      BitVec.getLsbD_eq_getElem hi]

end Halves

/-! ### One round -/

/-- A round, bit by bit: the bit that leaves decides whether the polynomial is added. -/
theorem getLsbD_crcRound (a : U16) (i : Nat) :
    (crcRound a).getLsbD i = ((a <<< 1).getLsbD i ^^ (a.getLsbD 15 && crcPoly.getLsbD i)) := by
  unfold crcRound
  split
  next h => rw [BitVec.getLsbD_xor, h, Bool.true_and]
  next h => rw [Bool.eq_false_of_not_eq_true h, Bool.false_and, Bool.xor_false]

/-- The bit shifted out can be read back from bit 0, for the polynomial has constant term 1. -/
theorem crcRound_bit_zero (a : U16) : (crcRound a).getLsbD 0 = a.getLsbD 15 := by
  rw [getLsbD_crcRound, show crcPoly.getLsbD 0 = true from rfl, Bool.and_true]
  simp

theorem crcRound_xor (a b : U16) : crcRound (a ^^^ b) = crcRound a ^^^ crcRound b := by
  refine BitVec.eq_of_getLsbD_eq fun i _ => ?_
  simp only [BitVec.getLsbD_xor, getLsbD_crcRound, BitVec.shiftLeft_xor_distrib,
    Bool.and_xor_distrib_right, Bool.xor_assoc, Bool.xor_left_comm]

theorem crcRound_injective : Function.Injective crcRound := by
  intro a b h
  have hTop : a.getLsbD 15 = b.getLsbD 15 := by
    rw [← crcRound_bit_zero a, h, crcRound_bit_zero]
  refine BitVec.eq_of_getLsbD_eq fun i hi => ?_
  by_cases h15 : i = 15
  · rw [h15, hTop]
  · have hBit : (crcRound a).getLsbD (i + 1) = (crcRound b).getLsbD (i + 1) := by rw [h]
    rw [getLsbD_crcRound, getLsbD_crcRound, hTop, Bool.xor_left_inj] at hBit
    simpa [show i + 1 < 16 by omega, BitVec.getLsbD_eq_getElem hi] using hBit

/-- With bit 15 clear a round is a shift. -/
theorem crcRound_of_lt {a : U16} (h : a.toNat < 2 ^ 15) : crcRound a = a <<< 1 :=
  if_neg (by rw [BitVec.getLsbD, Nat.testBit_lt_two_pow h]; decide)

/-! ### Several rounds -/

theorem crcRounds_xor (n : Nat) (a b : U16) :
    crcRounds n (a ^^^ b) = crcRounds n a ^^^ crcRounds n b := by
  induction n generalizing a b with
  | zero => rfl
  | succ n ih => simp only [crcRounds, crcRound_xor, ih]

theorem crcRounds_injective (n : Nat) : Function.Injective (crcRounds n) := by
  induction n with
  | zero => exact fun _ _ h => h
  | succ n ih => exact ih.comp crcRound_injective

/-- As long as no set bit leaves bit 15, the rounds are shifts. -/
theorem crcRounds_of_lt {n : Nat} {a : U16} (h : a.toNat * 2 ^ n < 2 ^ 16) :
    crcRounds n a = a <<< n := by
  induction n generalizing a with
  | zero => simp [crcRounds]
  | succ n ih =>
    rw [Nat.pow_succ', ← Nat.mul_assoc] at h
    have hLe := Nat.le_mul_of_pos_right (a.toNat * 2) (Nat.two_pow_pos n)
    have hTop : a.toNat < 2 ^ 15 := by omega
    have hTwice : (a <<< 1).toNat = a.toNat * 2 := by
      rw [BitVec.toNat_shiftLeft, Nat.shiftLeft_eq, Nat.mod_eq_of_lt (by omega)]
    rw [crcRounds, crcRound_of_lt hTop, ih (by rwa [hTwice]),
      ← BitVec.shiftLeft_add, Nat.add_comm]

/-! ### One step -/

/-- For a fixed byte the step is a bijection of the accumulators (40_crc16.md R104 (a)). -/
theorem crcStep_bijective (b : Byte) : Function.Bijective (fun acc => crcStep acc b) := by
  have : Finite U16 := Finite.of_equiv _ BitVec.equivFin.symm.toEquiv
  refine Finite.injective_iff_bijective.mp fun acc acc' h => ?_
  exact (BitVec.xor_left_inj _).mp (crcRounds_injective 8 h)

/-- For a fixed accumulator the step is injective in the byte (40_crc16.md R104 (b)). -/
theorem crcStep_injective (acc : U16) : Function.Injective (crcStep acc) := by
  intro b b' h
  have hHigh := (BitVec.xor_right_inj _).mp (crcRounds_injective 8 h)
  rw [setWidth_shiftLeft_eight, setWidth_shiftLeft_eight, le16_inj] at hHigh
  exact hHigh.2

/-- An entry of the table is eight rounds over its index in the high byte (40_crc16.md R98). -/
theorem crcTable_eq_crcRounds (i : Byte) : crcTable i = crcRounds 8 (i.setWidth 16 <<< 8) := by
  simp [crcTable, crc16From, crcStep]

/-- Eight rounds only move the low byte up, none of its bits leaving bit 15; the high byte goes
through the table (40_crc16.md R98). -/
theorem crcRounds_eight (a : U16) : crcRounds 8 a = a <<< 8 ^^^ crcTable (hi8 a) := by
  have hLow : crcRounds 8 ((lo8 a).setWidth 16) = (lo8 a).setWidth 16 <<< 8 :=
    crcRounds_of_lt (by rw [BitVec.toNat_setWidth]; omega)
  calc crcRounds 8 a
      = crcRounds 8 ((lo8 a).setWidth 16 ^^^ (hi8 a).setWidth 16 <<< 8) := by
        rw [lo8_xor_hi8_shiftLeft]
    _ = a <<< 8 ^^^ crcTable (hi8 a) := by
        rw [crcRounds_xor, hLow, lo8_shiftLeft, crcTable_eq_crcRounds]

/-- A word that a step with the byte 0x00 gives back has the low byte of its table entry, and that
byte plus the entry's high byte is the word's high byte. Of the 256 high bytes two meet this. -/
theorem crcTable_fixed (h : Byte) (hFix : lo8 (crcTable h) ^^^ hi8 (crcTable h) = h) :
    h = 0x00#8 ∨ h = 0xF0#8 := by
  revert h
  decide +kernel

/-- The two accumulators that the byte 0x00 leaves unchanged (40_crc16.md R101). -/
theorem crcStep_zero_eq_self_iff (acc : U16) :
    crcStep acc 0x00#8 = acc ↔ acc = 0x0000#16 ∨ acc = 0xF01F#16 := by
  constructor
  · intro h
    rw [crcStep, crcRounds_eight] at h
    have hLow : lo8 (crcTable (hi8 acc)) = lo8 acc := by
      simpa [lo8_xor, lo8_shiftLeft_eight] using congrArg lo8 h
    have hHigh : lo8 acc ^^^ hi8 (crcTable (hi8 acc)) = hi8 acc := by
      simpa [hi8_xor, hi8_shiftLeft_eight] using congrArg hi8 h
    rw [← le16_lo8_hi8 acc, ← hLow]
    rcases crcTable_fixed (hi8 acc) (by rw [hLow, hHigh]) with h0 | hF0
    · rw [h0]; exact .inl (by decide +kernel)
    · rw [hF0]; exact .inr (by decide +kernel)
  · rintro (rfl | rfl) <;> decide +kernel

end Sys2Proof.Machine
end

section
/-! The commands of the CRC16 unit (40_crc16.md section 2): their words, their effect, and what a
run of them leaves. -/

namespace Sys2Proof.Machine

/-! ### The words (30_encoding.md R85) -/

section Words
variable (imm8 : Byte)

theorem decode_crcReset_word : decode (wordOf 0x00#8 imm8) = .ok .crcReset := by
  simp [decode, Laws.opcodeOf_wordOf]

theorem decode_crcStep_word : decode (wordOf 0x01#8 imm8) = .ok (.crcStep imm8) := by
  simp [decode, Laws.opcodeOf_wordOf, Laws.imm8Of_wordOf]

theorem decode_crcRead_word : decode (wordOf 0x02#8 imm8) = .ok .crcRead := by
  simp [decode, Laws.opcodeOf_wordOf]

end Words

/-! ### The effect -/

section Effect
variable (s : State)

theorem exec_crcReset :
    exec .crcReset s = .next ({ s with crcAcc := crcSeed }.respond .nothing) := rfl

theorem exec_crcStep (b : Byte) :
    exec (.crcStep b) s = .next ({ s with crcAcc := crcStep s.crcAcc b }.respond .nothing) := rfl

theorem exec_crcRead : exec .crcRead s = .next (s.respond (.value s.crcAcc)) := rfl

end Effect

/-! ### Runs over words -/

/-- The first of the words the host issued is taken and executed. -/
theorem runSteps_withWords_cons {s : State} {w : U16} {ws : List U16} {i : Instr} {t : State}
    (hd : decode w = .ok i) (he : exec i (s.withWords ws) = .next t) (k : Nat) :
    runSteps (k + 1) (s.withWords (w :: ws)) = runSteps k t := by
  have hStep : step (s.withWords (w :: ws)) = .next t := by
    rw [step, State.fetch_command _ rfl]
    simp only [hd]
    exact he
  rw [runSteps, hStep]

section Runs
variable (s : State) (ws : List U16) (k : Nat)

theorem runSteps_crcReset (imm8 : Byte) :
    runSteps (k + 1) (s.withWords (wordOf 0x00#8 imm8 :: ws)) =
      runSteps k (({ s with crcAcc := crcSeed }.respond .nothing).withWords ws) :=
  runSteps_withWords_cons (decode_crcReset_word imm8) rfl k

theorem runSteps_crcStep (b : Byte) :
    runSteps (k + 1) (s.withWords (wordOf 0x01#8 b :: ws)) =
      runSteps k (({ s with crcAcc := crcStep s.crcAcc b }.respond .nothing).withWords ws) :=
  runSteps_withWords_cons (decode_crcStep_word b) rfl k

theorem runSteps_crcRead (imm8 : Byte) :
    runSteps (k + 1) (s.withWords (wordOf 0x02#8 imm8 :: ws)) =
      runSteps k ((s.respond (.value s.crcAcc)).withWords ws) :=
  runSteps_withWords_cons (decode_crcRead_word imm8) rfl k

/-- `CRC.FEED` (30_encoding.md R89) folds its bytes and answers nothing to each. -/
theorem runSteps_crcFeed (l : List Byte) :
    runSteps (l.length + k) (s.withWords (l.map (fun b => encode (.crcStep b)) ++ ws)) =
      runSteps k ({ s with crcAcc := crc16From s.crcAcc l
                           responses := s.responses ++ List.replicate l.length Response.nothing
                  }.withWords ws) := by
  induction l generalizing s with
  | nil => simp [crc16From]
  | cons b l ih =>
    rw [List.length_cons, Nat.add_right_comm, List.map_cons, List.cons_append]
    refine (runSteps_crcStep s _ _ b).trans ?_
    rw [ih]
    simp [State.respond, crc16From, List.replicate_succ]

/-- A reset, the bytes of a message and a read answer nothing until the read, which answers the
checksum of the message (40_crc16.md R102, R105). -/
theorem runSteps_crcMessage (l : List Byte) :
    ∃ t, runSteps (l.length + 1 + 1) (s.withWords (wordOf 0x00#8 0 ::
        (l.map (fun b => encode (.crcStep b)) ++ [wordOf 0x02#8 0]))) = .next t ∧
      t.responses = s.responses ++ List.replicate (l.length + 1) .nothing ++
        [.value (crc16 l)] := by
  rw [runSteps_crcReset, runSteps_crcFeed, runSteps_crcRead]
  refine ⟨_, rfl, ?_⟩
  simp [State.withWords, crc16, List.replicate_succ]

end Runs

/-- The checksum of the spec's example message (40_crc16.md R105). -/
theorem crc16_exampleMessage :
    crc16 [0x01#8, 0x14#8, 0x03#8, 0x61#8, 0x62#8, 0x63#8, 0x2A#8] = 0xBA64#16 := by decide +kernel

/-! ### The obligations -/

/-- Settles O9, by the algebra of the step. -/
theorem crcStepFoldsOneByte : Obligations.CrcStepFoldsOneByte :=
  ⟨decode_crcStep_word, fun b s => exec_crcStep s b, by decide +kernel, crcStep_zero_eq_self_iff,
    crcStep_bijective, crcStep_injective, by decide +kernel⟩

/-- Settles O8, by the effect of `CRC.RESET`. -/
theorem crcResetWritesTheSeed : Obligations.CrcResetWritesTheSeed :=
  ⟨decode_crcReset_word, exec_crcReset,
    fun s => ⟨_, _, exec_crcReset s, exec_crcReset _, rfl, rfl⟩,
    fun s => ⟨_, exec_crcReset s, exec_crcRead _⟩⟩

/-- Settles O10; the example is a message of seven bytes. -/
theorem crcReadReturnsTheAccumulator : Obligations.CrcReadReturnsTheAccumulator :=
  ⟨decode_crcRead_word, exec_crcRead,
    fun s => ⟨_, _, exec_crcRead s, exec_crcRead _, by simp⟩,
    fun s b => ⟨_, _, exec_crcRead s, exec_crcStep _ b, rfl⟩,
    fun s => crc16_exampleMessage ▸
      runSteps_crcMessage s [0x01#8, 0x14#8, 0x03#8, 0x61#8, 0x62#8, 0x63#8, 0x2A#8]⟩

end Sys2Proof.Machine
end

section
/-! `ENC` against its pseudocode (41_encode.md R118): its word, the frame of a descriptor it
accepts, written in numbers, and the check that rejects any other. -/

namespace Sys2Proof.Machine

theorem decode_enc_word (imm8 : Byte) : decode (wordOf 0x10#8 imm8) = .ok .enc := by
  simp [decode, Laws.opcodeOf_wordOf]

/-! ### An accepted descriptor (41_encode.md R114 to R116) -/

/-- The two bytes of a 16-bit field, as numbers. -/
theorem le16Bytes_eq_ofNat (v : U16) :
    le16Bytes v = [BitVec.ofNat 8 v.toNat, BitVec.ofNat 8 (v.toNat / 256)] := by
  have hLo : lo8 v = BitVec.ofNat 8 v.toNat :=
    BitVec.eq_of_toNat_eq (by rw [lo8_toNat, BitVec.toNat_ofNat])
  have hHi : hi8 v = BitVec.ofNat 8 (v.toNat / 256) := by
    rw [← hi8_toNat, BitVec.ofNat_toNat, BitVec.setWidth_eq]
  rw [le16Bytes, hLo, hHi]

/-- The body of a frame, its headers written as sums of shifted fields (30_encoding.md R74). -/
theorem frameBody_eq_sums {md : Descriptor} (h : md.Encodable) :
    let ph := md.payload.length + md.type.toNat * 2 ^ 10 + bit md.internal * 2 ^ 14 +
      bit md.offp * 2 ^ 15
    let mh := md.id.length + bit md.query * 2 ^ 4 + md.ackNum.toNat * 2 ^ 5
    let off := if md.offp then
      [BitVec.ofNat 8 md.offset.toNat, BitVec.ofNat 8 (md.offset.toNat / 256)] else []
    frameBody md = [BitVec.ofNat 8 ph, BitVec.ofNat 8 (ph / 256), BitVec.ofNat 8 mh] ++ md.id ++
      off ++ md.payload := by
  intro ph mh off
  have ⟨hType, _, hId, hPayload, hAck, _⟩ := h
  have hPh : (packPh md.payload.length md.type md.internal md.offp).toNat = ph :=
    packPh_toNat md.internal md.offp hPayload hType
  have hMhNat : (packMh md.id.length md.query md.ackNum).toNat = mh :=
    packMh_toNat md.query hId hAck
  have hMh : packMh md.id.length md.query md.ackNum = BitVec.ofNat 8 mh := by
    rw [← hMhNat, BitVec.ofNat_toNat, BitVec.setWidth_eq]
  have hOff : offsetField md = off := by rw [offsetField, le16Bytes_eq_ofNat]
  rw [frameBody, le16Bytes_eq_ofNat, hPh, hMh, hOff]
  rfl

/-! ### A rejected descriptor (41_encode.md R112) -/

/-- The error of a descriptor that is not encodable. The order is that of the checks; the last one
needs no condition of its own, since some check fails. -/
theorem validate_rejected {md : Descriptor} (h : ¬ md.Encodable) :
    validate md = some
      (if 15 < md.type.toNat then .validation .type 15
       else if md.id.length < 1 then .validation .idLen 1
       else if 15 < md.id.length then .validation .idLen 15
       else if 1023 < md.payload.length then .validation .payLen 1023
       else if 7 < md.ackNum.toNat then .validation .ackNum 7
       else .validation .ack 0) := by
  have hFails : validate md ≠ none := mt (validate_none_iff md).mp h
  unfold validate maxType minId maxId maxPayload maxAckNum at hFails ⊢
  -- The two sides branch on the same checks and differ only where every check passes.
  split_ifs at hFails ⊢
  case neg => exact hFails rfl
  all_goals rfl

/-- What `ENC` does with a descriptor that a check rejects. -/
theorem exec_enc_rejected {s : State} {e : BlockError} (h : validate s.ops.md = some e) :
    exec .enc s = .next (s.respond (.error e)) :=
  execEnc_error (encodeFrame_error h)

/-! ### The example (41_encode.md R118) -/

/-- The descriptor of the spec's example. -/
def exampleDescriptor : Descriptor :=
  { id := [0x61#8, 0x62#8, 0x63#8], payload := [0x2A#8], type := 5#8, internal := false,
    query := false, offp := false, offset := 0, ack := false, ackNum := 0 }

theorem exampleDescriptor_encodable : exampleDescriptor.Encodable := by decide

theorem frameBody_exampleDescriptor : frameBody exampleDescriptor =
    [0x01#8, 0x14#8, 0x03#8, 0x61#8, 0x62#8, 0x63#8, 0x2A#8] := by decide

/-- Its frame; the checksum is that of the example message of 40_crc16.md R105. -/
theorem frame_exampleDescriptor : sealBody (frameBody exampleDescriptor) =
    [0x01#8, 0x14#8, 0x03#8, 0x61#8, 0x62#8, 0x63#8, 0x2A#8, 0x64#8, 0xBA#8] := by
  rw [frameBody_exampleDescriptor, sealBody, crc16_exampleMessage]
  rfl

/-! ### The obligation -/

/-- Settles O18: an accepted descriptor by the sums of its headers, a rejected one by the order of
the checks. -/
theorem encFollowsItsPseudocode : Obligations.EncFollowsItsPseudocode := by
  refine ⟨decode_enc_word, ?_, fun s h => exec_enc_rejected (validate_rejected h), rfl, rfl, rfl,
    rfl, rfl, ?_⟩
  · intro s h
    rw [exec_enc_encodable h, sealBody, frameBody_eq_sums h, le16Bytes_eq_ofNat]
    rfl
  · intro s hs
    change s.ops.md = exampleDescriptor at hs
    rw [exec_enc_encodable (hs ▸ exampleDescriptor_encodable), hs, frame_exampleDescriptor]
    rfl

end Sys2Proof.Machine
end

section
/-! `SD.STEP` in the states that fill a buffer: `MSGID`, `OFFSET` and `PAYLOAD` (43_streaming.md R148
to R150). -/

namespace Sys2Proof.Machine

/-! ### The step of each state -/

section FieldStep
variable {u : SdUnit} (delim : Bool) (now : Nat) (b : Byte)

theorem sdStepUnit_msgid (hs : u.state = .msgid) (hc : u.cnt.toNat < 15) :
    sdStepUnit delim now b u = quiet
      (if u.cnt.toNat + 1 = u.header.idLen.toNat then
        enter (u.took .id b) (if u.header.offp then .offset else afterOffset u)
      else u.took .id b) := by
  have hSize : u.cnt.toNat < Space.id.size := hc
  have hOther : Space.id ≠ .hdr := by decide
  simp only [sdStepUnit, hs, stepMsgid, takeByte_inside b hSize, took_cnt_toNat b hSize,
    SdUnit.took_header hOther, afterOffset_took hOther, apply_ite quiet]

theorem sdStepUnit_offset (hs : u.state = .offset) (hc : u.cnt.toNat < 2) :
    sdStepUnit delim now b u = quiet
      (if u.cnt.toNat = 1 then enter (u.took .off b) (afterOffset u) else u.took .off b) := by
  have hSize : u.cnt.toNat < Space.off.size := hc
  have hOther : Space.off ≠ .hdr := by decide
  simp only [sdStepUnit, hs, stepOffset, takeByte_inside b hSize, took_cnt_toNat b hSize,
    afterOffset_took hOther, apply_ite quiet, Nat.reduceEqDiff]

theorem sdStepUnit_payload (hs : u.state = .payload) (hc : u.cnt.toNat < 1023) :
    sdStepUnit delim now b u = quiet
      (if u.cnt.toNat + 1 = u.header.payLen.toNat then enter (u.took .pay b) .checksum
      else u.took .pay b) := by
  have hSize : u.cnt.toNat < Space.pay.size := hc
  have hOther : Space.pay ≠ .hdr := by decide
  simp only [sdStepUnit, hs, stepPayload, takeByte_inside b hSize, took_cnt_toNat b hSize,
    SdUnit.took_header hOther, apply_ite quiet]

end FieldStep

/-! ### What such a step leaves -/

/-- A byte taken is stored at the count and folded, and every other byte stays. -/
theorem tookByte_took {u : SdUnit} (h : u.BuffersOk) (sp : Space) (b : Byte) :
    TookByte u (u.took sp b) sp b :=
  ⟨u.took_crc sp b, u.took_ck0 sp b, u.took_load h sp b⟩

/-- Leaving a state stores and folds nothing. -/
theorem TookByte.enter {u v : SdUnit} {sp : Space} {b : Byte} (h : TookByte u v sp b)
    (st : SdState) : TookByte u (enter v st) sp b := by
  simpa only [TookByte, enter_crc, enter_ck0, enter_load] using h

/-- A step that takes a byte of a field reports nothing; the `last` byte of the field leads to the
state `st` with count 0, any other is counted. -/
theorem exec_sdStep_takes {s : State} {b : Byte} {sp : Space} {last : Prop} [Decidable last]
    {st : SdState} (hBuf : s.sd.BuffersOk) (hc : s.sd.cnt.toNat < sp.size)
    (h : sdStepUnit s.delim s.ops.now b s.sd =
      quiet (if last then enter (s.sd.took sp b) st else s.sd.took sp b)) :
    ∃ t, exec (.sdStep b) s = .next t ∧ OnlySdUnit s t (.stream none none) ∧
      TookByte s.sd t.sd sp b ∧
      if last then t.sd.cnt = 0 ∧ t.sd.state = st
      else t.sd.state = s.sd.state ∧ t.sd.cnt.toNat = s.sd.cnt.toNat + 1 := by
  have hTook := tookByte_took hBuf sp b
  refine ⟨_, execSdStep_next h, rfl, ?_⟩
  by_cases hl : last
  · simp only [if_pos hl]
    exact ⟨hTook.enter st, enter_cnt _ st, enter_state _ st⟩
  · simp only [if_neg hl]
    exact ⟨hTook, s.sd.took_state sp b, took_cnt_toNat b hc⟩

/-! ### How `OFFSET` and `PAYLOAD` are entered -/

theorem afterOffset_ne_offset (u : SdUnit) : afterOffset u ≠ .offset := by
  by_cases h : 0 < u.header.payLen.toNat <;> simp [afterOffset, h]

theorem afterOffset_eq_payload_iff (u : SdUnit) :
    afterOffset u = .payload ↔ 0 < u.header.payLen.toNat := by
  by_cases h : 0 < u.header.payLen.toNat <;> simp [afterOffset, h]

/-- A step that enters `OFFSET` or `PAYLOAD` ends the field before it, keeps the header and goes
where the header says (43_streaming.md R148, R149). -/
theorem SdStepCase.entered {delim : Bool} {now : Nat} {b : Byte} {u v : SdUnit} {m : Option Msg}
    {e : Option BlockError} (h : SdStepCase delim now b u v m e) (hMoved : v.state ≠ u.state)
    (hField : v.state = .offset ∨ v.state = .payload) :
    v.header = u.header ∧
      (v.state = (if u.header.offp then .offset else afterOffset u) ∨
        v.state = afterOffset u) := by
  cases h with
  | msgidLast => exact ⟨SdUnit.took_header (sp := .id) (by decide) b, .inl rfl⟩
  | offsetLast => exact ⟨SdUnit.took_header (sp := .off) (by decide) b, .inr rfl⟩
  | noise | checksumLow => exact absurd rfl hMoved
  | hdrMore | msgidMore | offsetMore | payloadMore => exact absurd (u.took_state _ b) hMoved
  | soh | first | hdrNoId | hdrLast | payloadLast | checksumBad | checksumGood | checksumEmit
  | eotEmit | eotBad => rcases hField with hField | hField <;> cases hField

/-- A step of the machine by `SD.STEP` is a row of the transition table. -/
theorem exec_sdStep_row {s t : State} {b : Byte} (h : exec (.sdStep b) s = .next t) :
    ∃ m e, SdStepCase s.delim s.ops.now b s.sd t.sd m e := by
  change execSdStep b s = .next t at h
  rcases execSdStep_cases b s with ⟨-, v, m, e, hNext, hRow⟩ | ⟨-, sp, -, hFault⟩
  · rw [hNext] at h
    cases h
    exact ⟨m, e, hRow⟩
  · rw [hFault] at h
    cases h

/-! ### The obligations -/

/-- Settles O33, by the step of `MSGID`. -/
theorem sdStepTakesIdentifierBytes : Obligations.SdStepTakesIdentifierBytes := by
  intro s b hBuf hs hc
  exact hs ▸ exec_sdStep_takes (sp := .id) hBuf hc (sdStepUnit_msgid _ _ b hs hc)

/-- Settles O34, by the step of `OFFSET` and the rows that enter it. -/
theorem sdStepTakesOffsetBytes : Obligations.SdStepTakesOffsetBytes := by
  constructor
  · intro s b hBuf hs hc
    exact hs ▸ exec_sdStep_takes (sp := .off) hBuf hc (sdStepUnit_offset _ _ b hs hc)
  · intro s t b hNext hs ht
    obtain ⟨m, e, hRow⟩ := exec_sdStep_row hNext
    obtain ⟨hHeader, hState⟩ := hRow.entered (ht ▸ hs.symm) (.inl ht)
    rw [hHeader]
    by_contra hOffp
    rw [if_neg hOffp, or_self, ht] at hState
    exact afterOffset_ne_offset s.sd hState.symm

/-- Settles O35, by the step of `PAYLOAD` and the rows that enter it. -/
theorem sdStepTakesPayloadBytes : Obligations.SdStepTakesPayloadBytes := by
  constructor
  · intro s b hBuf hs hc
    exact hs ▸ exec_sdStep_takes (sp := .pay) hBuf hc (sdStepUnit_payload _ _ b hs hc)
  · intro s t b hNext hs ht
    obtain ⟨m, e, hRow⟩ := exec_sdStep_row hNext
    obtain ⟨hHeader, hState⟩ := hRow.entered (ht ▸ hs.symm) (.inr ht)
    rw [hHeader, ← afterOffset_eq_payload_iff]
    rw [ht] at hState
    rcases hState with hState | hState
    · split at hState
      · cases hState
      · exact hState.symm
    · exact hState.symm

end Sys2Proof.Machine
end

section
/-! The message that `SD.STEP` emits, in numbers (43_streaming.md R155). -/

namespace Sys2Proof.Machine

/-- A message, its header fields as quotients and remainders of the header bytes (30_encoding.md R66,
R67). -/
theorem messageOf_headerOf (b0 b1 b2 : Byte) (id payload : List Byte) (offset : U16) (now : Nat) :
    let ph := b0.toNat + 256 * b1.toNat
    let mh := b2.toNat
    messageOf (headerOf b0 b1 b2) id payload offset now =
      { id := id
        payload := payload
        type := BitVec.ofNat 4 (ph / 2 ^ 10)
        internal := decide (ph / 2 ^ 14 % 2 = 1)
        query := decide (mh / 2 ^ 4 % 2 = 1)
        offset := if ph / 2 ^ 15 = 1 then some offset else none
        ack := decide (mh / 2 ^ 5 ≠ 0)
        ackNum := BitVec.ofNat 3 (mh / 2 ^ 5)
        timestamp := now } := by
  intro ph mh
  have hType : (headerOf b0 b1 b2).type = BitVec.ofNat 4 (ph / 2 ^ 10) :=
    BitVec.eq_of_toNat_eq (headerOf_type b0 b1 b2)
  have hAckNat := headerOf_ackNum b0 b1 b2
  have hAckNum : (headerOf b0 b1 b2).ackNum = BitVec.ofNat 3 (mh / 2 ^ 5) := by
    change _ = BitVec.ofNat 3 (b2.toNat / 32)
    rw [← hAckNat, BitVec.ofNat_toNat, BitVec.setWidth_eq]
  have hAck : ((headerOf b0 b1 b2).ackNum != 0) = decide (mh / 2 ^ 5 ≠ 0) := by
    rw [Bool.eq_iff_iff, bne_iff_ne, decide_eq_true_iff, ne_eq, ← BitVec.toNat_inj, hAckNat]
    rfl
  have hOffp : (headerOf b0 b1 b2).offp = decide (ph / 2 ^ 15 = 1) := by
    have := b0.isLt
    have := b1.isLt
    rw [headerOf_offp]
    exact decide_eq_decide.mpr (by omega)
  rw [messageOf, Msg.mk.injEq, hOffp, if_congr decide_eq_true_iff rfl rfl]
  exact ⟨rfl, rfl, hType, headerOf_internal b0 b1 b2, headerOf_query b0 b1 b2, rfl, hAck, hAckNum,
    rfl⟩

/-- The emitted message, read from the buffers byte by byte. -/
theorem sdMsg_eq_loads (u : SdUnit) (now : Nat) :
    let ph := (u.load .hdr 0).toNat + 256 * (u.load .hdr 1).toNat
    let mh := (u.load .hdr 2).toNat
    sdMsg u now =
      { id := (List.range (mh % 2 ^ 4)).map (u.load .id)
        payload := (List.range (ph % 2 ^ 10)).map (u.load .pay)
        type := BitVec.ofNat 4 (ph / 2 ^ 10)
        internal := decide (ph / 2 ^ 14 % 2 = 1)
        query := decide (mh / 2 ^ 4 % 2 = 1)
        offset := if ph / 2 ^ 15 = 1 then
          some (BitVec.ofNat 16 ((u.load .off 0).toNat + 256 * (u.load .off 1).toNat)) else none
        ack := decide (mh / 2 ^ 5 ≠ 0)
        ackNum := BitVec.ofNat 3 (mh / 2 ^ 5)
        timestamp := now } := by
  intro ph mh
  have hOffset : le16 (u.load .off 0) (u.load .off 1) =
      BitVec.ofNat 16 ((u.load .off 0).toNat + 256 * (u.load .off 1).toNat) := by
    rw [← le16_toNat, BitVec.ofNat_toNat, BitVec.setWidth_eq]
  have hId : u.id.bytes 0 u.header.idLen.toNat = (List.range (mh % 2 ^ 4)).map (u.load .id) := by
    simp only [SdUnit.header, headerOf_idLen, Memory.bytes, Nat.zero_add]
    rfl
  have hPayload : u.pay.bytes 0 u.header.payLen.toNat =
      (List.range (ph % 2 ^ 10)).map (u.load .pay) := by
    simp only [SdUnit.header, headerOf_payLen, Memory.bytes, Nat.zero_add]
    rfl
  rw [sdMsg, hId, hPayload, hOffset]
  exact messageOf_headerOf _ _ _ _ _ _ now

/-! ### Where a message is emitted (43_streaming.md R151, R152) -/

theorem sdStepUnit_eot_emits {u : SdUnit} (delim : Bool) (now : Nat) (hs : u.state = .eot) :
    sdStepUnit delim now eot u = sdEmit u now := by
  simp only [sdStepUnit, hs, stepEot, if_true]

theorem sdStepUnit_checksum_emits {u : SdUnit} {b : Byte} (now : Nat) (hs : u.state = .checksum)
    (hc : u.cnt = 1) (hk : le16 u.ck0 b = u.crc) : sdStepUnit false now b u = sdEmit u now := by
  simp [sdStepUnit, hs, stepChecksum, hc, hk]

/-- A step that emits resets the unit and answers the message. -/
theorem exec_sdStep_emits {s : State} {b : Byte}
    (h : sdStepUnit s.delim s.ops.now b s.sd = sdEmit s.sd s.ops.now) :
    exec (.sdStep b) s = .next { s with
      sd := SdUnit.reset
      responses := s.responses ++ [.stream (some (sdMsg s.sd s.ops.now)) none] } :=
  execSdStep_next h

/-- Settles O38: both emitting steps answer the message read from the buffers. -/
theorem emittedMessageIsReadFromTheBuffers : Obligations.EmittedMessageIsReadFromTheBuffers := by
  intro s b hEmits ph mh
  refine (exec_sdStep_emits ?_).trans (by rw [sdMsg_eq_loads])
  rcases hEmits with ⟨hs, rfl⟩ | ⟨hs, hc, hd, hk⟩
  · exact sdStepUnit_eot_emits _ _ hs
  · rw [hd]
    exact sdStepUnit_checksum_emits _ hs hc (BitVec.eq_of_toNat_eq (by rw [le16_toNat, hk]))

end Sys2Proof.Machine
end

section
/-! `SD.RESET`, and `SD.STEP` in `IDLE` and over a run of bytes (43_streaming.md R142, R145). -/

namespace Sys2Proof.Machine

/-! ### The words (30_encoding.md R85) -/

section SdWords
variable (imm8 : Byte)

theorem decode_sdReset_word : decode (wordOf 0x20#8 imm8) = .ok .sdReset := by
  simp [decode, Laws.opcodeOf_wordOf]

theorem decode_sdStep_word : decode (wordOf 0x21#8 imm8) = .ok (.sdStep imm8) := by
  simp [decode, Laws.opcodeOf_wordOf, Laws.imm8Of_wordOf]

end SdWords

/-! ### `SD.RESET` -/

theorem exec_sdReset (s : State) :
    exec .sdReset s = .next ({ s with sd := SdUnit.reset }.respond .nothing) := rfl

/-! ### `IDLE` in delimited mode -/

theorem sdStepUnit_idle_delimited {u : SdUnit} (now : Nat) (b : Byte) (hs : u.state = .idle) :
    sdStepUnit true now b u = quiet (if b = soh then { u with state := .hdr } else u) := by
  simp only [sdStepUnit, hs, stepIdle, if_true, apply_ite quiet]

/-- Settles O31, by the step of `IDLE`. -/
theorem sdStepIdleIgnoresNoise : Obligations.SdStepIdleIgnoresNoise := by
  have hStep : ∀ (s : State) (b : Byte), s.sd.state = .idle → s.delim = true →
      exec (.sdStep b) s =
        .next { s with sd := if b = 0x01#8 then { s.sd with state := .hdr } else s.sd,
                       responses := s.responses ++ [.stream none none] } := fun s b hs hd =>
    execSdStep_next (by rw [hd]; exact sdStepUnit_idle_delimited _ b hs)
  refine ⟨hStep, fun s hReset hd => ⟨_, hStep s _ (by rw [hReset, SdUnit.reset_state]) hd, ?_⟩⟩
  rw [if_pos rfl, hReset]
  exact ⟨rfl, rfl, rfl⟩

/-! ### Runs of bytes -/

/-- The unit after some bytes, whatever it reports on the way. -/
def SdUnit.feed (delim : Bool) (now : Nat) : SdUnit → List Byte → Except Fault SdUnit
  | u, [] => .ok u
  | u, b :: bs =>
    match sdStepUnit delim now b u with
    | .error f => .error f
    | .ok (v, _) => v.feed delim now bs

/-- The time value of a step tells in its message alone, never in the unit. -/
theorem sdStepUnit_unit_time (delim : Bool) (now now' : Nat) (b : Byte) (u : SdUnit) :
    (sdStepUnit delim now b u).map Prod.fst = (sdStepUnit delim now' b u).map Prod.fst := by
  cases hs : u.state with
  | idle | hdr | msgid | offset | payload => simp only [sdStepUnit, hs]
  | checksum => simp only [sdStepUnit, hs, stepChecksum]; split_ifs <;> rfl
  | eot => simp only [sdStepUnit, hs, stepEot]; split_ifs <;> rfl

theorem SdUnit.feed_cons (u : SdUnit) (delim : Bool) (now : Nat) (b : Byte) (bs : List Byte) :
    u.feed delim now (b :: bs) =
      ((sdStepUnit delim now b u).map Prod.fst).bind fun v => v.feed delim now bs := by
  rw [SdUnit.feed]
  cases sdStepUnit delim now b u <;> rfl

theorem SdUnit.feed_time (u : SdUnit) (delim : Bool) (now now' : Nat) (bs : List Byte) :
    u.feed delim now bs = u.feed delim now' bs := by
  induction bs generalizing u with
  | nil => rfl
  | cons b bs ih => simp only [SdUnit.feed_cons, sdStepUnit_unit_time delim now now', ih]

/-- `SD.FEED` (30_encoding.md R89) leaves the unit that its bytes leave. -/
theorem runSteps_sdFeed {s : State} {bs : List Byte} {v : SdUnit}
    (h : s.sd.feed s.delim s.ops.now bs = .ok v) :
    ∃ t, runSteps bs.length (s.withWords (bs.map (fun b => encode (.sdStep b)))) = .next t ∧
      t.sd = v := by
  induction bs generalizing s with
  | nil =>
    cases h
    exact ⟨_, rfl, rfl⟩
  | cons b bs ih =>
    unfold SdUnit.feed at h
    split at h
    next => cases h
    next u r hStep =>
      obtain ⟨t, hRun, ht⟩ := ih (s := { s with sd := u }.respond (.stream r.1 r.2)) h
      refine ⟨t, ?_, ht⟩
      rw [List.length_cons, List.map_cons, ← hRun]
      exact runSteps_withWords_cons (decode_sdStep_word b) (execSdStep_next hStep) bs.length

/-- The spec's example of a frame attempt given up (43_streaming.md R142): five bytes of a frame that
names three identifier bytes. -/
def exampleAttempt : List Byte := [0x01#8, 0x14#8, 0x03#8, 0x61#8, 0x62#8]

theorem feed_exampleAttempt (now : Nat) :
    SdUnit.reset.feed false now exampleAttempt =
      .ok { state := .msgid, cnt := 2, crc := 0x47A4#16
            hdr := [(0, 0x01#8), (1, 0x14#8), (2, 0x03#8)], id := [(0, 0x61#8), (1, 0x62#8)]
            off := [], pay := [], ck0 := 0 } := by
  rw [SdUnit.feed_time _ _ now 0]
  decide +kernel

/-- Settles O29, by the effect of `SD.RESET`; the example is a run of five bytes. -/
theorem sdResetClearsTheUnit : Obligations.SdResetClearsTheUnit := by
  refine ⟨decode_sdReset_word, exec_sdReset, rfl, rfl, rfl, rfl, SdUnit.reset_load,
    fun s => ⟨_, _, exec_sdReset s, exec_sdReset _, rfl, rfl, rfl, rfl⟩, fun s hd hReset => ?_⟩
  have hFeed := feed_exampleAttempt s.ops.now
  rw [← hd, ← hReset] at hFeed
  obtain ⟨t, hRun, ht⟩ := runSteps_sdFeed hFeed
  exact ⟨t, _, hRun, by rw [ht], by rw [ht], by rw [ht], exec_sdReset t, rfl, rfl, rfl⟩

end Sys2Proof.Machine
end

section
/-! What an error changes (60_exceptions.md R175, R180). -/

namespace Sys2Proof.Machine

/-! ### `SD.STEP` -/

/-- A step of the unit that reports an error ends in the reset unit and gives no message
(43_streaming.md R156). -/
theorem SdStepCase.of_error {delim : Bool} {now : Nat} {b : Byte} {u v : SdUnit} {m : Option Msg}
    {e : BlockError} (h : SdStepCase delim now b u v m (some e)) :
    v = SdUnit.reset ∧ m = none := by
  cases h with
  | hdrNoId | checksumBad | eotBad => exact ⟨rfl, rfl⟩

theorem SdStepCase.of_framing {delim : Bool} {now : Nat} {b : Byte} {u v : SdUnit} {m : Option Msg}
    (h : SdStepCase delim now b u v m (some .framing)) : u.state = .eot ∧ b ≠ eot := by
  cases h with
  | eotBad hs hb => exact ⟨hs, hb⟩

theorem sdStepUnit_eot_framing {u : SdUnit} {b : Byte} (delim : Bool) (now : Nat)
    (hs : u.state = .eot) (hb : b ≠ eot) : sdStepUnit delim now b u = sdError u .framing := by
  simp only [sdStepUnit, hs, stepEot, if_neg hb]

theorem afterOffset_ne_eot (u : SdUnit) : afterOffset u ≠ .eot := by
  by_cases h : 0 < u.header.payLen.toNat <;> simp [afterOffset, h]

/-- Of all rows that leave the unit in `EOT`, the one from another state is that of the good checksum
in delimited mode (43_streaming.md R151). -/
theorem SdStepCase.enters_eot {delim : Bool} {now : Nat} {b : Byte} {u v : SdUnit} {m : Option Msg}
    {e : Option BlockError} (h : SdStepCase delim now b u v m e) (hu : u.state ≠ .eot)
    (hv : v.state = .eot) :
    u.state = .checksum ∧ u.cnt.toNat ≠ 0 ∧ delim = true ∧ le16 u.ck0 b = u.crc ∧
      v = enter u .eot := by
  cases h with
  | checksumGood hs hc hk hd => exact ⟨hs, hc, hd, hk, rfl⟩
  | noise | checksumLow => exact absurd hv hu
  | hdrMore | msgidMore | offsetMore | payloadMore => exact absurd (u.took_state _ b ▸ hv) hu
  | msgidLast =>
    rw [enter_state] at hv
    split at hv
    · cases hv
    · exact absurd hv (afterOffset_ne_eot u)
  | offsetLast => exact absurd hv (afterOffset_ne_eot u)
  | soh | first | hdrNoId | hdrLast | payloadLast | checksumBad | checksumEmit | eotEmit | eotBad =>
    cases hv

/-! ### Every command -/

theorem State.respond_responses_inj {s t : State} {q r : Response}
    (hs : t.responses = s.responses) (h : (t.respond q).responses = s.responses ++ [r]) : q = r := by
  simpa [hs] using h

/-- A command other than `SD.STEP` reports no error, or it answers with an error, which is never
`FramingError`, and changes nothing. -/
theorem exec_cases_of_ne_sdStep {i : Instr} (s : State) (hi : ∀ b, i ≠ .sdStep b) :
    (∃ (t : State) (q : Response), exec i s = .next (t.respond q) ∧
        t.responses = s.responses ∧ reportedError q = none) ∨
      (∃ e : BlockError, e ≠ .framing ∧ exec i s = .next (s.respond (.error e))) := by
  cases i with
  | crcReset | crcStep | crcRead | sdReset => exact .inl ⟨_, _, rfl, rfl, rfl⟩
  | enc =>
    rcases execEnc_cases s with ⟨f, -, h⟩ | ⟨k, n, -, h⟩
    · exact .inl ⟨s, .frame f, h, rfl, rfl⟩
    · exact .inr ⟨.validation k n, by simp, h⟩
  | encd =>
    rcases execEncd_cases s with ⟨f, -, h⟩ | ⟨k, n, -, h⟩
    · exact .inl ⟨s, .frame (wrapFrame f), h, rfl, rfl⟩
    · exact .inr ⟨.validation k n, by simp, h⟩
  | dec =>
    rcases execDec_cases s with ⟨m, -, h⟩ | ⟨e, he, -, h⟩
    · exact .inl ⟨s, .message m, h, rfl, rfl⟩
    · exact .inr ⟨e, by rcases he with rfl | rfl <;> simp, h⟩
  | sdStep b => exact absurd rfl (hi b)

/-- Everything that a command which reports an error has done: `SD.STEP` has taken a row of its table
that resets the unit, any other command has only answered. -/
theorem exec_reportedError_cases {i : Instr} {s t : State} {r : Response} {e : BlockError}
    (hNext : exec i s = .next t) (hResp : t.responses = s.responses ++ [r])
    (hErr : reportedError r = some e) :
    (∃ b, i = .sdStep b ∧ r = .stream none (some e) ∧
        SdStepCase s.delim s.ops.now b s.sd SdUnit.reset none (some e) ∧
        t = { s with sd := SdUnit.reset, responses := s.responses ++ [r] }) ∨
      ((∀ b, i ≠ .sdStep b) ∧ e ≠ .framing ∧ r = .error e ∧ t = s.respond r) := by
  by_cases hi : ∃ b, i = .sdStep b
  · left
    obtain ⟨b, rfl⟩ := hi
    rcases execSdStep_cases b s with ⟨-, v, m, e', h, hRow⟩ | ⟨-, sp, -, h⟩
    · cases hNext.symm.trans h
      obtain rfl : .stream m e' = r := State.respond_responses_inj rfl hResp
      obtain rfl : e' = some e := hErr
      obtain ⟨rfl, rfl⟩ := hRow.of_error
      exact ⟨b, rfl, rfl, hRow, rfl⟩
    · cases hNext.symm.trans h
  · right
    have hi : ∀ b, i ≠ .sdStep b := not_exists.mp hi
    rcases exec_cases_of_ne_sdStep s hi with ⟨t', q, h, hs, hq⟩ | ⟨e', he, h⟩
    · cases hNext.symm.trans h
      obtain rfl := State.respond_responses_inj hs hResp
      cases hq.symm.trans hErr
    · cases hNext.symm.trans h
      obtain rfl := State.respond_responses_inj rfl hResp
      cases hErr
      exact ⟨hi, he, rfl, rfl⟩

/-- A reserved word is taken with its operands and answered, and nothing else changes
(30_encoding.md R87). -/
theorem step_reserved {s : State} {c : Command} {rest : List Request} {e : DecodeError}
    (hPending : s.pending = .command c :: rest) (hWord : decode c.word = .error e) :
    step s = .next
      ({ s with pending := rest, ops := c.ops }.respond (.error .illegalCommand)) := by
  simp only [step, State.fetch_command s hPending, hWord, State.rejectWord_eq]

/-! ### The obligations -/

/-- Settles O40, by the rows of `EOT` and the one row that enters it. -/
theorem framingErrorOnlyAfterAGoodChecksum : Obligations.FramingErrorOnlyAfterAGoodChecksum := by
  refine ⟨fun s b hInv hs hb => ?_, fun i s t r hInv hNext hResp hErr => ?_,
    fun s t b hNext hs ht => ?_⟩
  · obtain ⟨hDelim, -⟩ := hInv.eot hs
    exact ⟨hDelim, execSdStep_next (sdStepUnit_eot_framing _ _ hs hb)⟩
  · rcases exec_reportedError_cases hNext hResp hErr with
      ⟨b, hi, -, hRow, rfl⟩ | ⟨-, hOther, -⟩
    · obtain ⟨hs, hb⟩ := hRow.of_framing
      obtain ⟨hDelim, -, hKept⟩ := hInv.eot hs
      exact ⟨⟨b, hi, hb⟩, hDelim, hs, hInv.folded, hKept, rfl⟩
    · exact absurd rfl hOther
  · obtain ⟨m, e, hRow⟩ := exec_sdStep_row hNext
    obtain ⟨hState, hCnt, hDelim, hCrc, hUnit⟩ := hRow.enters_eot hs ht
    exact ⟨hState, fun h => hCnt (congrArg BitVec.toNat h), hDelim, hCrc, hUnit⟩

/-- Settles O53, by what a command that reports an error can have done. -/
theorem errorsChangeNothingButTheSdUnit : Obligations.ErrorsChangeNothingButTheSdUnit := by
  refine ⟨fun i s t r e hNext hResp hErr => ?_, fun s c rest e hPending hWord =>
    ⟨_, step_reserved hPending hWord, rfl, rfl, rfl, rfl⟩⟩
  rcases exec_reportedError_cases hNext hResp hErr with
    ⟨b, hi, rfl, -, ht⟩ | ⟨hi, -, rfl, ht⟩
  · exact ⟨rfl, nofun, fun _ => ht, fun h => absurd hi (h b)⟩
  · exact ⟨rfl, nofun, fun ⟨b, hb⟩ => absurd hb (hi b), fun _ => ht⟩

end Sys2Proof.Machine
end

section
/-! The resets of the units: by command, and of the SD unit by itself (70_reset_and_hazards.md R196,
R197). -/

namespace Sys2Proof.Machine

/-! ### The SD unit after a report -/

/-- A row of the table that gives a message or an error ends in the reset unit (43_streaming.md
R156). -/
theorem SdStepCase.of_report {delim : Bool} {now : Nat} {b : Byte} {u v : SdUnit} {m : Option Msg}
    {e : Option BlockError} (h : SdStepCase delim now b u v m e) (hReport : m ≠ none ∨ e ≠ none) :
    v = SdUnit.reset := by
  cases h with
  | hdrNoId | checksumBad | checksumEmit | eotEmit | eotBad => rfl
  | soh | noise | first | hdrMore | hdrLast | msgidMore | msgidLast | offsetMore | offsetLast
  | payloadMore | payloadLast | checksumLow | checksumGood => simp at hReport

/-- A step of the machine by `SD.STEP` takes a row of the table, answers what the row gives and
changes nothing outside the SD unit. -/
theorem exec_sdStep_answers {s t : State} {b : Byte} (h : exec (.sdStep b) s = .next t) :
    ∃ m e, SdStepCase s.delim s.ops.now b s.sd t.sd m e ∧ OnlySdUnit s t (.stream m e) := by
  rcases execSdStep_cases b s with ⟨-, v, m, e, hNext, hRow⟩ | ⟨-, sp, -, hFault⟩
  · cases h.symm.trans hNext
    exact ⟨m, e, hRow, rfl⟩
  · cases h.symm.trans hFault

/-! ### The accumulator (10_state.md R23) -/

@[simp] theorem State.conclude_crcAcc (s : State) (r : Except BlockError Response) :
    (s.conclude r).crcAcc = s.crcAcc := by cases r <;> rfl

/-- The CRC16 unit never resets by itself (70_reset_and_hazards.md R197). -/
theorem exec_keeps_crcAcc {i : Instr} {s t : State} (h : exec i s = .next t)
    (hReset : i ≠ .crcReset) (hStep : ∀ b, i ≠ .crcStep b) : t.crcAcc = s.crcAcc := by
  cases i with
  | crcReset => exact absurd rfl hReset
  | crcStep b => exact absurd rfl (hStep b)
  | crcRead | sdReset =>
    cases h
    rfl
  | enc | encd | dec =>
    cases h
    exact State.conclude_crcAcc _ _
  | sdStep b =>
    obtain ⟨m, e, -, hOnly⟩ := exec_sdStep_answers h
    rw [hOnly]

/-! ### The obligations -/

/-- Settles O39, by the rows that report and by what each command leaves of the accumulator. -/
theorem sdUnitResetsItselfAfterEveryReport : Obligations.SdUnitResetsItselfAfterEveryReport := by
  refine ⟨fun s t b m e hNext hResp hReport => ?_, fun i s t => exec_keeps_crcAcc⟩
  obtain ⟨m', e', hRow, hOnly⟩ := exec_sdStep_answers hNext
  rw [hOnly] at hResp
  cases State.respond_responses_inj rfl hResp
  have hUnit : t.sd = SdUnit.reset := hRow.of_report hReport
  exact ⟨hUnit, fun sp i => hUnit ▸ SdUnit.reset_load sp i⟩

/-- Settles O16, by the effect of the two commands. -/
theorem softwareResetsTogetherAreHardwareReset :
    Obligations.SoftwareResetsTogetherAreHardwareReset :=
  fun s => ⟨_, _, _, exec_crcReset s, rfl, rfl, exec_sdReset s, rfl, rfl, exec_sdReset _, rfl, rfl,
    rfl⟩

end Sys2Proof.Machine
end

section
/-! The checksum of a list (40_crc16.md sections 1 and 3): the other two forms of a step, and what
grouping and damage do to a fold. -/

namespace Sys2Proof.Machine

/-! ### Folds -/

theorem crc16From_append (acc : U16) (l m : List Byte) :
    crc16From acc (l ++ m) = crc16From (crc16From acc l) m := by
  induction l generalizing acc with
  | nil => rfl
  | cons b l ih => exact ih (crcStep acc b)

/-- One more byte. -/
theorem crc16_append_singleton (l : List Byte) (b : Byte) :
    crc16 (l ++ [b]) = crcStep (crc16 l) b := crc16From_append _ l [b]

theorem crc16From_eq_foldl (acc : U16) (l : List Byte) : crc16From acc l = l.foldl crcStep acc := by
  induction l generalizing acc with
  | nil => rfl
  | cons b l ih => exact ih (crcStep acc b)

/-- Every step can be undone, and so can a fold. -/
theorem crc16From_injective (l : List Byte) : Function.Injective (fun acc => crc16From acc l) := by
  induction l with
  | nil => exact fun _ _ h => h
  | cons b l ih => exact ih.comp (crcStep_bijective b).injective

theorem crcRounds_eq_iterate (n : Nat) (a : U16) : crcRounds n a = crcRound^[n] a := by
  induction n generalizing a with
  | zero => rfl
  | succ n ih => exact ih (crcRound a)

/-! ### The shift-and-xor form (40_crc16.md R99) -/

theorem and_low_mask (c : U16) : c &&& 0x00FF#16 = (lo8 c).setWidth 16 := by
  apply BitVec.eq_of_toNat_eq
  have hMask : (c &&& 0x00FF#16).toNat = c.toNat % 2 ^ 8 := Nat.and_two_pow_sub_one_eq_mod _ 8
  rw [hMask, BitVec.toNat_setWidth, lo8_toNat]
  omega

/-- A line of the form adds to the word a part computed from it. -/
def addPart (part : U16 → U16) (c : U16) : U16 := c ^^^ part c

theorem addPart_xor {part : U16 → U16} (h : ∀ c d, part (c ^^^ d) = part c ^^^ part d) (c d : U16) :
    addPart part (c ^^^ d) = addPart part c ^^^ addPart part d := by
  simp only [addPart, h]
  ac_rfl

/-- The last three lines of the form, on the word after the first two. -/
def shiftTail (c : U16) : U16 :=
  addPart (fun c => (c &&& 0x00FF#16) <<< 5)
    (addPart (fun c => c <<< 12) (addPart (fun c => (c &&& 0x00FF#16) >>> 4) c))

theorem shiftTail_xor (c d : U16) : shiftTail (c ^^^ d) = shiftTail c ^^^ shiftTail d := by
  have hMask (c d : U16) : (c ^^^ d) &&& 0x00FF#16 = (c &&& 0x00FF#16) ^^^ (d &&& 0x00FF#16) := by
    simp only [and_low_mask, lo8_xor, BitVec.setWidth_xor]
  rw [shiftTail, addPart_xor fun c d => by rw [hMask, BitVec.ushiftRight_xor_distrib],
    addPart_xor fun c d => by rw [BitVec.shiftLeft_xor_distrib],
    addPart_xor fun c d => by rw [hMask, BitVec.shiftLeft_xor_distrib]]
  rfl

/-- A word whose low byte is zero passes unchanged. -/
theorem shiftTail_shiftLeft_eight (a : U16) : shiftTail (a <<< 8) = a <<< 8 := by
  have hOut : a <<< 8 <<< 12 = 0#16 := by
    rw [← BitVec.shiftLeft_add, BitVec.shiftLeft_eq_zero (by decide)]
  simp [shiftTail, addPart, and_low_mask, lo8_shiftLeft_eight, hOut]

/-- On a byte the lines compute the table, as its 256 entries show. -/
theorem shiftTail_setWidth (x : Byte) : shiftTail (x.setWidth 16) = crcTable x := by
  revert x
  decide +kernel

/-- The first line swaps the two bytes of the accumulator. -/
theorem swap_eq_xor (a : U16) : a >>> 8 ||| a <<< 8 = (hi8 a).setWidth 16 ^^^ a <<< 8 := by
  ext i hi
  by_cases h : i < 8
  · simp [hi8, h]
  · simp [hi8, h, BitVec.getLsbD_of_ge a (8 + i) (by omega)]


theorem crcStep_eq_table (acc : U16) (b : Byte) :
    crcStep acc b = acc <<< 8 ^^^ crcTable (hi8 acc ^^^ b) := by
  have hOut : (b.setWidth 16 : U16) <<< 8 <<< 8 = 0#16 := by
    rw [← BitVec.shiftLeft_add, BitVec.shiftLeft_eq_zero (by decide)]
  rw [crcStep, crcRounds_eight, BitVec.shiftLeft_xor_distrib, hOut, BitVec.xor_zero, hi8_xor,
    setWidth_shiftLeft_eight, hi8_le16]

/-! ### The obligations -/

/-- Settles O12: eight rounds shift the low byte up and send the high byte through the table. -/
theorem crcTableFormIsCrcStep : Obligations.CrcTableFormIsCrcStep :=
  fun acc b => (crcStep_eq_table acc b).symm

/-- Settles O13: the form is linear, leaves the low byte of the accumulator in the high half and
computes the table on the rest. -/
theorem crcShiftFormIsCrcStep : Obligations.CrcShiftFormIsCrcStep := by
  intro acc b
  calc crcStepByShifts acc b
      = shiftTail ((acc >>> 8 ||| acc <<< 8) ^^^ b.setWidth 16) := rfl
    _ = shiftTail ((hi8 acc ^^^ b).setWidth 16 ^^^ acc <<< 8) := by
        rw [swap_eq_xor, BitVec.setWidth_xor, BitVec.xor_assoc, BitVec.xor_assoc,
          BitVec.xor_comm (acc <<< 8)]
    _ = crcTable (hi8 acc ^^^ b) ^^^ acc <<< 8 := by
        rw [shiftTail_xor, shiftTail_setWidth, shiftTail_shiftLeft_eight]
    _ = crcStep acc b := by rw [crcStep_eq_table, BitVec.xor_comm]

/-- Settles O11, by the iterate of the round and the fold of the step. -/
theorem crcStepIsEightShiftAndXorRounds : Obligations.CrcStepIsEightShiftAndXorRounds :=
  ⟨fun _ _ => crcRounds_eq_iterate 8 _, crc16From_eq_foldl crcSeed⟩

/-- Settles O14: a fold over an appended list, and two feeds with a read between them. -/
theorem checksumOfSplitLists : Obligations.ChecksumOfSplitLists := by
  refine ⟨crc16From_append, fun s l m => ?_⟩
  have hRead (u : State) (ws : List U16) (k : Nat) :
      runSteps (k + 1) (u.withWords (encode .crcRead :: ws)) =
        runSteps k ((u.respond (.value u.crcAcc)).withWords ws) := runSteps_crcRead u ws k 0
  have hFeed (u : State) := runSteps_crcFeed u [] 0 m
  rw [Nat.add_assoc, List.append_assoc, runSteps_crcFeed, List.singleton_append, Nat.add_comm 1,
    hRead]
  simp only [List.append_nil, Nat.add_zero] at hFeed
  exact ⟨_, hFeed _, (crc16From_append _ l m).symm, rfl⟩

/-- Settles O15: the two folds part at the damaged byte and no later step brings them together. -/
theorem oneByteDamageChangesTheChecksum : Obligations.OneByteDamageChangesTheChecksum := by
  intro acc l m a b hab h
  rw [crc16From_append, crc16From_append] at h
  exact hab (crcStep_injective _ (crc16From_injective m h))

end Sys2Proof.Machine
end

section
/-! The fields of a frame (30_encoding.md R65): the one-shot decoder accepts exactly the frames
whose fields fit their header, and returns what the fields say. -/

namespace Sys2Proof.Machine

/-! ### A body and two bytes after it -/

section Sealed
variable (body : List Byte) (v : U16)

theorem computedChecksum_append : computedChecksum (body ++ le16Bytes v) = crc16 body := by
  simp [computedChecksum, le16Bytes]

theorem receivedChecksum_append : receivedChecksum (body ++ le16Bytes v) = v := by
  rw [← le16_lo8_hi8 v]
  simp [receivedChecksum, byteAt, le16Bytes]

theorem computedChecksum_sealBody : computedChecksum (sealBody body) = crc16 body :=
  computedChecksum_append _ _

theorem receivedChecksum_sealBody : receivedChecksum (sealBody body) = crc16 body :=
  receivedChecksum_append _ _

end Sealed

/-- Two bytes at the end of a list are its `receivedChecksum`. -/
theorem eq_take_append_receivedChecksum {l : List Byte} (h : 2 ≤ l.length) :
    l = l.take (l.length - 2) ++ le16Bytes (receivedChecksum l) := by
  obtain ⟨n, hn⟩ : ∃ n, l.length = n + 2 := ⟨l.length - 2, by omega⟩
  rw [receivedChecksum, le16Bytes, lo8_le16, hi8_le16, hn]
  conv_lhs => rw [← List.take_append_drop n l]
  congr 1
  rw [List.drop_eq_getElem_cons (by omega), List.drop_eq_getElem_cons (by omega),
    List.drop_eq_nil_of_le (by omega)]
  simp [byteAt, hn]

/-- An input with a matching checksum is the sealed form of all but its last two bytes. -/
theorem eq_sealBody {l : List Byte} (h : 2 ≤ l.length)
    (hSum : computedChecksum l = receivedChecksum l) : l = sealBody (l.take (l.length - 2)) := by
  rw [computedChecksum] at hSum
  rw [sealBody, hSum]
  exact eq_take_append_receivedChecksum h

/-! ### The fields -/

/-- The fields of a frame before its checksum, in the order of the wire: three header bytes, the
messageID, the offset field and the payload. -/
@[ext] structure WireFields where
  b0 : Byte
  b1 : Byte
  b2 : Byte
  id : List Byte
  off : List Byte
  pay : List Byte

section Fields
variable (w : WireFields)

def WireFields.header : Header := headerOf w.b0 w.b1 w.b2

/-- The fields on the wire. -/
def WireFields.body : List Byte := [w.b0, w.b1, w.b2] ++ w.id ++ w.off ++ w.pay

/-- The message that the fields say. -/
def WireFields.message (now : Nat) : Msg :=
  messageOf w.header w.id w.pay (le16 (byteAt w.off 0) (byteAt w.off 1)) now

/-- Each field is as long as the header says, and there is a messageID (42_decode.md R126). -/
structure WireFields.Fits : Prop where
  id : w.id.length = w.header.idLen.toNat
  off : w.off.length = 2 * bit w.header.offp
  pay : w.pay.length = w.header.payLen.toNat
  named : w.header.idLen.toNat ≠ 0

theorem headerAt_sealBody : headerAt (sealBody w.body) = w.header := rfl

end Fields

/-- An absent offset is not looked at. -/
theorem messageOf_congr_offset {h : Header} (id pay : List Byte) {o o' : U16} (now : Nat)
    (ho : h.offp = true → o = o') : messageOf h id pay o now = messageOf h id pay o' now := by
  unfold messageOf
  split
  next hp => rw [ho hp]
  next => rfl

theorem WireFields.Fits.length_body {w : WireFields} (h : w.Fits) :
    w.body.length + 2 = frameLen w.header := by
  simp only [body, List.length_append, List.length_cons, List.length_nil, h.id, h.off, h.pay,
    frameLen]
  omega

section Between
variable {l a b c : List Byte} (hl : l = a ++ (b ++ c))
include hl

/-- A list that stands between two others, read back as a slice. -/
theorem slice_between {i n : Nat} (hi : a.length = i) (hn : b.length = n) : slice l i n = b := by
  subst hl hi hn
  simp [slice]

/-- A byte of such a list. -/
theorem byteAt_between {i k : Nat} (hi : a.length + k = i) (hk : k < b.length) :
    byteAt l i = byteAt b k := by
  subst hl hi
  rw [byteAt, byteAt, List.getD_append_right _ _ _ _ (by omega), Nat.add_sub_cancel_left,
    List.getD_append _ _ _ _ hk]

end Between

/-- The decoder reads back fields that fit. -/
theorem decodeFrame_sealBody {w : WireFields} (h : w.Fits) (now : Nat) :
    decodeFrame (sealBody w.body) now = .ok (w.message now) := by
  have hLen := h.length_body
  have hEnough : 5 ≤ frameLen w.header := by simp only [frameLen]; omega
  rw [decodeFrame_ok_iff, headerAt_sealBody, sealBody_length, computedChecksum_sealBody,
    receivedChecksum_sealBody]
  refine ⟨hLen ▸ hEnough, rfl, h.named, hLen, ?_⟩
  have hId : slice (sealBody w.body) 3 w.header.idLen.toNat = w.id :=
    slice_between (a := [w.b0, w.b1, w.b2]) (c := w.off ++ w.pay ++ le16Bytes (crc16 w.body))
      (by simp [sealBody, WireFields.body]) rfl h.id
  have hPay : slice (sealBody w.body) (payloadIndex w.header) w.header.payLen.toNat = w.pay :=
    slice_between (a := [w.b0, w.b1, w.b2] ++ w.id ++ w.off) (c := le16Bytes (crc16 w.body))
      (by simp [sealBody, WireFields.body])
      (by simp only [List.length_append, h.id, h.off]; rfl) h.pay
  have hOff (k : Nat) (hk : k < w.off.length) :
      byteAt (sealBody w.body) (3 + w.header.idLen.toNat + k) = byteAt w.off k :=
    byteAt_between (a := [w.b0, w.b1, w.b2] ++ w.id) (c := w.pay ++ le16Bytes (crc16 w.body))
      (by simp [sealBody, WireFields.body]) (by simp only [List.length_append, h.id]; rfl) hk
  rw [extract, headerAt_sealBody, hId, hPay]
  refine messageOf_congr_offset _ _ _ fun hPresent => ?_
  have hTwo : w.off.length = 2 := by rw [h.off, hPresent]; rfl
  rw [← hOff 0 (by omega), ← hOff 1 (by omega), Nat.add_right_comm 3 _ 1]
  rfl

/-- Whatever the decoder accepts is the sealed form of fields that fit. -/
theorem exists_fields_of_decodeFrame {l : List Byte} {now : Nat} {m : Msg}
    (h : decodeFrame l now = .ok m) :
    ∃ w : WireFields, w.Fits ∧ l = sealBody w.body ∧ m = w.message now := by
  obtain ⟨hLong, hSum, hNamed, hLen, -⟩ := (decodeFrame_ok_iff l now m).mp h
  obtain _ | ⟨b0, _ | ⟨b1, _ | ⟨b2, r⟩⟩⟩ := l
  · simp at hLong
  · simp at hLong
  · simp at hLong
  have hHeader : headerAt (b0 :: b1 :: b2 :: r) = headerOf b0 b1 b2 := rfl
  rw [hHeader] at hNamed hLen
  generalize hn : (headerOf b0 b1 b2).idLen.toNat = n at *
  generalize ho : 2 * bit (headerOf b0 b1 b2).offp = o at *
  generalize hm : (headerOf b0 b1 b2).payLen.toNat = p at *
  simp only [List.length_cons, frameLen, hn, ho, hm] at hLen
  let w : WireFields := ⟨b0, b1, b2, r.take n, (r.drop n).take o, (r.drop (n + o)).take p⟩
  have hFits : w.Fits := by
    refine ⟨?_, ?_, ?_, ?_⟩ <;> simp [w, WireFields.header, hn, ho, hm] <;> omega
  have hBody : (b0 :: b1 :: b2 :: r).take (r.length + 1) = w.body := by
    rw [show r.length + 1 = n + o + p + 3 by omega]
    simp [w, WireFields.body, List.take_add]
  have hSeal := eq_sealBody (by simp) hSum
  rw [show (b0 :: b1 :: b2 :: r).length - 2 = r.length + 1 by simp, hBody] at hSeal
  refine ⟨w, hFits, hSeal, ?_⟩
  rw [hSeal, decodeFrame_sealBody hFits] at h
  exact (Except.ok.inj h).symm

end Sys2Proof.Machine
end

section
/-! Encoding and decoding undo each other (42_decode.md section 3). -/

namespace Sys2Proof.Machine

/-! ### The fields of a descriptor -/

/-- The fields that `ENC` puts on the wire (41_encode.md R114, R115). -/
def Descriptor.fields (md : Descriptor) : WireFields :=
  let ph := packPh md.payload.length md.type md.internal md.offp
  ⟨lo8 ph, hi8 ph, packMh md.id.length md.query md.ackNum, md.id, offsetField md, md.payload⟩

theorem frameBody_eq_fields (md : Descriptor) : frameBody md = (Descriptor.fields md).body := rfl

section Encodable
variable {md : Descriptor} (h : md.Encodable)
include h

theorem fields_header : (Descriptor.fields md).header =
    { payLen := BitVec.ofNat 10 md.payload.length, type := md.type.setWidth 4,
      internal := md.internal, offp := md.offp, idLen := BitVec.ofNat 4 md.id.length,
      query := md.query, ackNum := md.ackNum.setWidth 3 } := by
  have ⟨hType, _, hId, hPayload, hAck, _⟩ := h
  exact headerOf_pack md.internal md.offp md.query hPayload hType hId hAck

theorem fields_fits : (Descriptor.fields md).Fits := by
  have ⟨_, hNamed, hId, hPayload, _, _⟩ := h
  refine ⟨?_, ?_, ?_, ?_⟩ <;> rw [fields_header h]
  · simp only [Descriptor.fields, BitVec.toNat_ofNat]; omega
  · cases hp : md.offp <;> simp [Descriptor.fields, offsetField, hp, le16Bytes, bit]
  · simp only [Descriptor.fields, BitVec.toNat_ofNat]; omega
  · simp only [BitVec.toNat_ofNat]; omega

/-- A small number keeps being nonzero in three bits. -/
theorem ackNum_setWidth_ne_zero : (md.ackNum.setWidth 3 != 0) = decide (md.ackNum ≠ 0) := by
  have ⟨_, _, _, _, hAck, _⟩ := h
  rw [Bool.eq_iff_iff, bne_iff_ne, decide_eq_true_iff, ne_eq, ne_eq, ← BitVec.toNat_inj,
    ← BitVec.toNat_inj, BitVec.toNat_setWidth, Nat.mod_eq_of_lt (by omega)]
  rfl

/-- What a descriptor says to the decoder: all that is transmitted. -/
theorem fields_message (now : Nat) : (Descriptor.fields md).message now =
    { id := md.id
      payload := md.payload
      type := md.type.setWidth 4
      internal := md.internal
      query := md.query
      offset := if md.offp then some md.offset else none
      ack := decide (md.ackNum ≠ 0)
      ackNum := md.ackNum.setWidth 3
      timestamp := now } := by
  have hOffset : md.offp = true →
      le16 (byteAt (offsetField md) 0) (byteAt (offsetField md) 1) = md.offset := fun hp => by
    simp [offsetField, hp, le16Bytes, byteAt]
  rw [WireFields.message, fields_header h, ← ackNum_setWidth_ne_zero h]
  exact messageOf_congr_offset _ _ _ hOffset

/-- Decoding an encoded frame (42_decode.md R135). -/
theorem decodeFrame_frame (now : Nat) :
    decodeFrame (sealBody (frameBody md)) now = .ok ((Descriptor.fields md).message now) := by
  rw [frameBody_eq_fields]
  exact decodeFrame_sealBody (fields_fits h) now

end Encodable

/-- Settles O25, by the fields that the encoder writes and the decoder reads. -/
theorem decodeOfEncodeReturnsTheMessage : Obligations.DecodeOfEncodeReturnsTheMessage := by
  intro s h
  refine ⟨_, exec_enc_encodable h, fun u hu => ?_⟩
  rw [← fields_message h]
  exact execDec_ok (by rw [hu, decodeFrame_frame h])

/-! ### The fields of a message -/

/-- A small number is the same number in eight bits. -/
theorem toNat_setWidth_eight {n : Nat} (x : BitVec n) (hn : n ≤ 8) :
    (x.setWidth 8).toNat = x.toNat := by
  rw [BitVec.toNat_setWidth, Nat.mod_eq_of_lt]
  exact lt_of_lt_of_le x.isLt (Nat.pow_le_pow_right (by decide) hn)

/-- Packing undoes unpacking (30_encoding.md R74, R75). -/
theorem pack_headerOf (b0 b1 b2 : Byte) :
    let h := headerOf b0 b1 b2
    packPh h.payLen.toNat (h.type.setWidth 8) h.internal h.offp = le16 b0 b1 ∧
      packMh h.idLen.toNat h.query (h.ackNum.setWidth 8) = b2 := by
  intro h
  have hType : (h.type.setWidth 8).toNat = h.type.toNat := toNat_setWidth_eight _ (by decide)
  have hAck : (h.ackNum.setWidth 8).toNat = h.ackNum.toNat := toNat_setWidth_eight _ (by decide)
  have hBit (n : Nat) : bit (decide (n % 2 = 1)) = n % 2 := by
    rcases Nat.mod_two_eq_zero_or_one n with hn | hn <;> simp [hn, bit]
  constructor <;> apply BitVec.eq_of_toNat_eq
  · rw [packPh_toNat h.internal h.offp (by omega) (by omega), hType, le16_toNat,
      headerOf_payLen, headerOf_type, headerOf_internal, headerOf_offp, hBit, hBit]
    omega
  · rw [packMh_toNat h.query (by omega) (by omega), hAck, headerOf_idLen, headerOf_query,
      headerOf_ackNum, hBit]
    omega

/-- Whether a message has an offset is what the header says. -/
theorem offset_isSome_messageOf (h : Header) (id pay : List Byte) (o : U16) (now : Nat) :
    (messageOf h id pay o now).offset.isSome = h.offp := by
  cases hp : h.offp <;> simp [messageOf, hp]

section Message
variable {w : WireFields} (h : w.Fits) (now : Nat)
include h

theorem descriptorOf_encodable : (descriptorOf (w.message now)).Encodable := by
  have hNamed := h.named
  have hId := h.id
  have hPay := h.pay
  have hType : (w.header.type.setWidth 8).toNat = w.header.type.toNat :=
    toNat_setWidth_eight _ (by decide)
  have hAck : (w.header.ackNum.setWidth 8).toNat = w.header.ackNum.toNat :=
    toNat_setWidth_eight _ (by decide)
  refine ⟨?_, ?_, ?_, ?_, ?_, fun hPos => ?_⟩
  · change (w.header.type.setWidth 8).toNat ≤ 15; omega
  · change 1 ≤ w.id.length; omega
  · change w.id.length ≤ 15; omega
  · change w.pay.length ≤ 1023; omega
  · change (w.header.ackNum.setWidth 8).toNat ≤ 7; omega
  · change 0 < (w.header.ackNum.setWidth 8).toNat at hPos
    change (w.header.ackNum != 0) = true
    rw [bne_iff_ne]
    intro hZero
    simp [hZero] at hPos

theorem offsetField_descriptorOf : offsetField (descriptorOf (w.message now)) = w.off := by
  have hOff := h.off
  rw [offsetField, show (descriptorOf (w.message now)).offp = w.header.offp from
    offset_isSome_messageOf _ _ _ _ _]
  split
  next hp =>
    rw [hp] at hOff
    obtain ⟨lo, hi, hTwo⟩ := List.length_eq_two.mp hOff
    simp [descriptorOf, WireFields.message, messageOf, hp, hTwo, byteAt, le16Bytes]
  next hp =>
    rw [Bool.eq_false_of_not_eq_true hp] at hOff
    exact (List.length_eq_zero_iff.mp hOff).symm

theorem fields_descriptorOf : Descriptor.fields (descriptorOf (w.message now)) = w := by
  obtain ⟨hPh, hMh⟩ := pack_headerOf w.b0 w.b1 w.b2
  have hOffp : (w.message now).offset.isSome = w.header.offp := offset_isSome_messageOf _ _ _ _ _
  have hPh : packPh w.pay.length (w.header.type.setWidth 8) w.header.internal
      (w.message now).offset.isSome = le16 w.b0 w.b1 := by
    rw [hOffp, h.pay]
    exact hPh
  have hMh : packMh w.id.length w.header.query (w.header.ackNum.setWidth 8) = w.b2 := h.id ▸ hMh
  exact WireFields.ext ((congrArg lo8 hPh).trans (lo8_le16 _ _))
    ((congrArg hi8 hPh).trans (hi8_le16 _ _)) hMh rfl (offsetField_descriptorOf h now) rfl

end Message

/-- An input that `DEC` answers with a message is one that it accepts. -/
theorem decodeFrame_of_exec_dec {u : State} {m : Msg}
    (h : exec .dec u = .next (u.respond (.message m))) :
    decodeFrame u.ops.buf u.ops.now = .ok m := by
  have hSame {r : Response} (hNext : execDec u = .next (u.respond r)) : r = .message m :=
    State.respond_responses_inj rfl
      (congrArg State.responses (Host.Outcome.next.inj (hNext.symm.trans h)))
  rcases execDec_cases u with ⟨m', hOk, hNext⟩ | ⟨e, -, -, hNext⟩
  · cases hSame hNext
    exact hOk
  · cases hSame hNext

/-- Settles O26: the descriptor of what the fields say has the same fields. -/
theorem encodeOfDecodeReturnsTheInput : Obligations.EncodeOfDecodeReturnsTheInput := by
  intro u s m hDec hMd
  have hOk := decodeFrame_of_exec_dec hDec
  obtain ⟨w, hFits, hBuf, rfl⟩ := exists_fields_of_decodeFrame hOk
  change s.ops.md = descriptorOf (w.message u.ops.now) at hMd
  have hEnc := exec_enc_encodable (s := s) (hMd ▸ descriptorOf_encodable hFits _)
  rw [hEnc, hMd, frameBody_eq_fields, fields_descriptorOf hFits, hBuf]
  rfl

end Sys2Proof.Machine
end

section
/-! What the codec commands answer, and what their answers depend on (41_encode.md sections 1 to 3,
42_decode.md sections 1 to 3). -/

namespace Sys2Proof.Machine

/-! ### Damage (42_decode.md section 3) -/

theorem decodeFrame_bad_checksum {l : List Byte} (now : Nat) (hLong : 2 ≤ l.length)
    (hBad : computedChecksum l ≠ receivedChecksum l) : decodeFrame l now = .error .checksum := by
  rw [decodeFrame, if_neg (by omega), if_pos hBad]

/-- One other byte in a list changes its checksum. -/
theorem crc16_set_ne {l : List Byte} {k : Nat} {b : Byte} (hk : k < l.length)
    (hb : b ≠ byteAt l k) : crc16 (l.set k b) ≠ crc16 l := by
  have hOld : l = l.take k ++ byteAt l k :: l.drop (k + 1) := by
    rw [byteAt, List.getD_eq_getElem _ _ hk, ← List.drop_eq_getElem_cons hk, List.take_append_drop]
  rw [List.set_eq_take_append_cons_drop, if_pos hk]
  conv_rhs => rw [hOld]
  exact oneByteDamageChangesTheChecksum crcSeed _ _ b _ hb

/-- One other byte in a sealed body, the checksum bytes included, breaks the checksum. -/
theorem checksum_sealBody_set_ne {body : List Byte} {k : Nat} {b : Byte}
    (hk : k < (sealBody body).length) (hb : b ≠ byteAt (sealBody body) k) :
    computedChecksum ((sealBody body).set k b) ≠ receivedChecksum ((sealBody body).set k b) := by
  rw [sealBody_length] at hk
  by_cases hIn : k < body.length
  · -- The checksum bytes stay and the body's checksum changes.
    have hByte : byteAt (sealBody body) k = byteAt body k := List.getD_append _ _ _ _ hIn
    rw [show (sealBody body).set k b = body.set k b ++ le16Bytes (crc16 body) from
      List.set_append_left _ _ hIn, computedChecksum_append, receivedChecksum_append]
    exact crc16_set_ne hIn (hByte ▸ hb)
  · -- The body stays and one of the checksum bytes changes.
    obtain rfl | rfl : k = body.length ∨ k = body.length + 1 := by omega
    · have hOld : byteAt (sealBody body) body.length = lo8 (crc16 body) := by
        simp [byteAt, sealBody, le16Bytes]
      have hSet : (sealBody body).set body.length b =
          body ++ le16Bytes (le16 b (hi8 (crc16 body))) := by
        simp [sealBody, le16Bytes]
      rw [hSet, computedChecksum_append, receivedChecksum_append]
      intro hSum
      exact hb (by rw [hOld, hSum, lo8_le16])
    · have hOld : byteAt (sealBody body) (body.length + 1) = hi8 (crc16 body) := by
        simp [byteAt, sealBody, le16Bytes]
      have hSet : (sealBody body).set (body.length + 1) b =
          body ++ le16Bytes (le16 (lo8 (crc16 body)) b) := by
        simp [sealBody, le16Bytes]
      rw [hSet, computedChecksum_append, receivedChecksum_append]
      intro hSum
      exact hb (by rw [hOld, hSum, hi8_le16])

/-- Settles O27: the damaged byte stands in the body or in the checksum, and either breaks the
match. -/
theorem oneByteDamageIsAChecksumError : Obligations.OneByteDamageIsAChecksumError := by
  intro s h
  refine ⟨_, exec_enc_encodable h, fun u k b hk hb hBuf => execDec_error ?_⟩
  rw [hBuf]
  exact decodeFrame_bad_checksum _ (by simp) (checksum_sealBody_set_ne hk hb)

/-! ### What a frame transmits (41_encode.md section 3) -/

/-- Two descriptors agree in all that is transmitted. -/
def SameTransmitted (c d : Descriptor) : Prop :=
  c.id = d.id ∧ c.payload = d.payload ∧ c.type = d.type ∧ c.internal = d.internal ∧
    c.query = d.query ∧ c.offp = d.offp ∧ c.ackNum = d.ackNum ∧
    (c.offp = true → c.offset = d.offset)

theorem frameBody_congr {c d : Descriptor} (h : SameTransmitted c d) :
    frameBody c = frameBody d := by
  obtain ⟨hId, hPayload, hType, hInternal, hQuery, hOffp, hAck, hOffset⟩ := h
  have hField : offsetField c = offsetField d := by
    cases hp : c.offp
    · simp [offsetField, hp, ← hOffp]
    · simp [offsetField, hp, ← hOffp, hOffset hp]
  simp only [frameBody, hId, hPayload, hType, hInternal, hQuery, hOffp, hAck, hField]

/-- A small byte can be read back from its low bits. -/
theorem byte_eq_of_setWidth_eq {a b : Byte} {n : Nat} (ha : a.toNat < 2 ^ n) (hb : b.toNat < 2 ^ n)
    (h : a.setWidth n = b.setWidth n) : a = b := by
  have hNat := congrArg BitVec.toNat h
  rw [BitVec.toNat_setWidth, BitVec.toNat_setWidth, Nat.mod_eq_of_lt ha,
    Nat.mod_eq_of_lt hb] at hNat
  exact BitVec.eq_of_toNat_eq hNat

/-- A frame says all that is transmitted, for it can be decoded. -/
theorem sameTransmitted_of_frame_eq {c d : Descriptor} (hc : c.Encodable) (hd : d.Encodable)
    (h : sealBody (frameBody c) = sealBody (frameBody d)) : SameTransmitted c d := by
  have hMsg : (Descriptor.fields c).message 0 = (Descriptor.fields d).message 0 :=
    Except.ok.inj ((decodeFrame_frame hc 0).symm.trans (h ▸ decodeFrame_frame hd 0))
  rw [fields_message hc, fields_message hd, Msg.mk.injEq] at hMsg
  obtain ⟨hId, hPayload, hType, hInternal, hQuery, hOffset, -, hAck, -⟩ := hMsg
  have ⟨hcType, _, _, _, hcAck, _⟩ := hc
  have ⟨hdType, _, _, _, hdAck, _⟩ := hd
  have hOffp : c.offp = d.offp := by
    cases hcp : c.offp <;> cases hdp : d.offp <;> simp [hcp, hdp] at hOffset ⊢
  refine ⟨hId, hPayload, byte_eq_of_setWidth_eq (by omega) (by omega) hType, hInternal, hQuery,
    hOffp, byte_eq_of_setWidth_eq (by omega) (by omega) hAck, fun hp => ?_⟩
  rw [← hOffp, hp] at hOffset
  exact Option.some.inj hOffset

/-- Settles O22: a frame can be decoded, and its body is built from what is transmitted. -/
theorem descriptorsWithTheSameFrame : Obligations.DescriptorsWithTheSameFrame := by
  intro s t hs ht
  exact ⟨_, _, exec_enc_encodable hs, exec_enc_encodable ht, sameTransmitted_of_frame_eq hs ht,
    fun h => congrArg sealBody (frameBody_congr h)⟩

/-! ### The length of a frame (41_encode.md section 1) -/

theorem length_frame (md : Descriptor) : (sealBody (frameBody md)).length =
    5 + md.id.length + 2 * bit md.offp + md.payload.length := by
  have hOff : (offsetField md).length = 2 * bit md.offp := by
    cases hp : md.offp <;> simp [offsetField, hp, le16Bytes, bit]
  simp only [sealBody_length, frameBody, le16Bytes, List.length_append, List.length_cons,
    List.length_nil, hOff]
  omega

theorem length_frame_range {md : Descriptor} (h : md.Encodable) :
    6 ≤ (sealBody (frameBody md)).length ∧ (sealBody (frameBody md)).length ≤ 1045 := by
  have ⟨_, hNamed, hId, hPayload, _, _⟩ := h
  have := bit_lt md.offp
  rw [length_frame]
  omega

/-- A descriptor with `n` identifier and `m` payload bytes, and perhaps an offset. -/
def descriptorOfSize (n m : Nat) (offp : Bool) : Descriptor :=
  { id := List.replicate n 0, payload := List.replicate m 0, type := 0, internal := false,
    query := false, offp := offp, offset := 0, ack := false, ackNum := 0 }

theorem descriptorOfSize_encodable {n m : Nat} (offp : Bool) (hLow : 1 ≤ n) (hHigh : n ≤ 15)
    (hm : m ≤ 1023) : (descriptorOfSize n m offp).Encodable := by
  simp [descriptorOfSize, Descriptor.Encodable, hLow, hHigh, hm]

theorem encodeFrame_descriptorOfSize {n m : Nat} (offp : Bool) (hLow : 1 ≤ n) (hHigh : n ≤ 15)
    (hm : m ≤ 1023) : ∃ md : Descriptor, md.Encodable ∧
      ∃ f, encodeFrame md = .ok f ∧ f.length = 5 + n + 2 * bit offp + m := by
  have h := descriptorOfSize_encodable offp hLow hHigh hm
  refine ⟨_, h, _, encodeFrame_encodable h, ?_⟩
  rw [length_frame]
  simp [descriptorOfSize]

/-- Settles O21; the ends are a lone identifier byte and everything at its largest. -/
theorem encodedFrameLength : Obligations.EncodedFrameLength := by
  refine ⟨fun s h => ⟨_, exec_enc_encodable h, length_frame _, length_frame_range h⟩,
    encodeFrame_descriptorOfSize (n := 1) (m := 0) false ?_ ?_ ?_,
    encodeFrame_descriptorOfSize (n := 15) (m := 1023) true ?_ ?_ ?_⟩ <;> decide

/-- Settles O19: both commands run the same encoder. -/
theorem encdWrapsWhatEncReturns : Obligations.EncdWrapsWhatEncReturns := by
  refine ⟨fun s h => ?_, fun s h => ?_⟩
  · have ⟨hLow, hHigh⟩ := length_frame_range h
    exact ⟨_, exec_enc_encodable h, execEncd_ok (encodeFrame_encodable h), by omega, by omega⟩
  · have hError := encodeFrame_error (validate_rejected h)
    exact ⟨_, execEnc_error hError, execEncd_error hError⟩

/-- Settles O28: each command concludes with a function of its operands. -/
theorem codecCommandsArePure : Obligations.CodecCommandsArePure := by
  have hConclude (x : Except BlockError Response) :
      ∃ r, ∀ s : State, s.conclude x = s.respond r := by
    cases x with
    | ok r => exact ⟨r, fun _ => rfl⟩
    | error e => exact ⟨.error e, fun _ => rfl⟩
  rintro i s t (rfl | rfl | rfl) hOps
  · obtain ⟨r, hr⟩ := hConclude ((encodeFrame s.ops.md).map .frame)
    exact ⟨r, congrArg _ (hr s), congrArg _ (hOps ▸ hr t)⟩
  · obtain ⟨r, hr⟩ := hConclude ((encodeDelimited s.ops.md).map .frame)
    exact ⟨r, congrArg _ (hr s), congrArg _ (hOps ▸ hr t)⟩
  · obtain ⟨r, hr⟩ := hConclude ((decodeFrame s.ops.buf s.ops.now).map .message)
    exact ⟨r, congrArg _ (hr s), congrArg _ (hOps ▸ hr t)⟩

/-! ### The decoder in numbers (42_decode.md R126) -/

section Numbers
variable (l : List Byte)

theorem checksum_match_iff : computedChecksum l = receivedChecksum l ↔
    (crc16 (l.take (l.length - 2))).toNat =
      (byteAt l (l.length - 2)).toNat + 256 * (byteAt l (l.length - 1)).toNat := by
  rw [← le16_toNat, BitVec.toNat_inj]
  rfl

/-- The offset flag is the top bit of the payloadHeader. -/
theorem bit_offp_headerAt : bit (headerAt l).offp =
    ((byteAt l 0).toNat + 256 * (byteAt l 1).toNat) / 2 ^ 15 := by
  have hTop : ((byteAt l 0).toNat + 256 * (byteAt l 1).toNat) / 2 ^ 15 < 2 := by omega
  rw [headerAt, headerOf_offp]
  generalize (byteAt l 0).toNat + 256 * (byteAt l 1).toNat = ph at *
  obtain h | h : ph / 2 ^ 15 = 0 ∨ ph / 2 ^ 15 = 1 := by omega
  · rw [h, bit, if_neg (by simpa using by omega)]
  · rw [h, bit, if_pos (by simpa using by omega)]

theorem frameLen_headerAt : frameLen (headerAt l) =
    5 + (byteAt l 2).toNat % 16 +
      2 * (((byteAt l 0).toNat + 256 * (byteAt l 1).toNat) / 2 ^ 15) +
      ((byteAt l 0).toNat + 256 * (byteAt l 1).toNat) % 2 ^ 10 := by
  rw [frameLen, bit_offp_headerAt, headerAt, headerOf_idLen, headerOf_payLen]
  rfl

/-- The message of an accepted input, its header fields as numbers. -/
theorem extract_eq_numbers (now : Nat) :
    let ph := (byteAt l 0).toNat + 256 * (byteAt l 1).toNat
    let mh := (byteAt l 2).toNat
    let idLen := mh % 2 ^ 4
    extract l now =
      { id := (l.drop 3).take idLen
        payload := (l.drop (3 + idLen + 2 * (ph / 2 ^ 15))).take (ph % 2 ^ 10)
        type := BitVec.ofNat 4 (ph / 2 ^ 10)
        internal := decide (ph / 2 ^ 14 % 2 = 1)
        query := decide (mh / 2 ^ 4 % 2 = 1)
        offset := if ph / 2 ^ 15 = 1 then
          some (BitVec.ofNat 16 ((byteAt l (3 + idLen)).toNat +
            256 * (byteAt l (4 + idLen)).toNat)) else none
        ack := decide (mh / 2 ^ 5 ≠ 0)
        ackNum := BitVec.ofNat 3 (mh / 2 ^ 5)
        timestamp := now } := by
  intro ph mh idLen
  have hId : (headerAt l).idLen.toNat = idLen := headerOf_idLen _ _ _
  have hPay : (headerAt l).payLen.toNat = ph % 2 ^ 10 := headerOf_payLen _ _ _
  have hIndex : payloadIndex (headerAt l) = 3 + idLen + 2 * (ph / 2 ^ 15) := by
    rw [payloadIndex, hId, bit_offp_headerAt]
  have hOffset (lo hi : Byte) : le16 lo hi = BitVec.ofNat 16 (lo.toNat + 256 * hi.toNat) := by
    rw [← le16_toNat, BitVec.ofNat_toNat, BitVec.setWidth_eq]
  rw [extract, hId, hPay, hIndex, hOffset]
  exact messageOf_headerOf _ _ _ _ _ _ now

end Numbers

/-- Settles O23, by the order of the checks. -/
theorem decReportsTheFirstFailingStep : Obligations.DecReportsTheFirstFailingStep := by
  intro s l n rx ph idLen hFails
  refine execDec_error ?_
  change decodeFrame l s.ops.now = _
  have hMatch : computedChecksum l = receivedChecksum l ↔ (crc16 (l.take (n - 2))).toNat = rx :=
    checksum_match_iff l
  by_cases hShort : n < 2
  · rw [if_pos hShort]
    exact if_pos hShort
  rw [if_neg hShort, decodeFrame, if_neg hShort]
  by_cases hSum : computedChecksum l = receivedChecksum l
  · rw [if_neg (not_not.mpr hSum), if_neg (not_not.mpr (hMatch.mp hSum))]
    split_ifs with hMin hNamed hLen
    case neg =>
      rw [headerAt, headerOf_idLen] at hNamed
      rw [frameLen_headerAt, not_not] at hLen
      rcases hFails with h | h | h | h | h
      · exact absurd h hShort
      · exact absurd (hMatch.mp hSum) h
      · exact absurd h hMin
      · exact absurd h hNamed
      · exact absurd hLen h
    all_goals rfl
  · rw [if_pos hSum, if_pos (mt hMatch.mpr hSum)]

/-- Settles O24, by what the decoder accepts and the message in numbers. -/
theorem decReturnsTheMessageOfAnAcceptedInput :
    Obligations.DecReturnsTheMessageOfAnAcceptedInput := by
  intro s l n rx ph mh idLen payLen o hLong hSum hNamed hLen
  have hOk : decodeFrame l s.ops.now = .ok (extract l s.ops.now) := by
    refine (decodeFrame_ok_iff _ _ _).mpr ⟨hLong, (checksum_match_iff l).mpr hSum, ?_, ?_, rfl⟩
    · rwa [headerAt, headerOf_idLen]
    · rw [frameLen_headerAt]
      exact hLen
  rw [extract_eq_numbers] at hOk
  exact execDec_ok hOk

end Sys2Proof.Machine
end

section
/-! The remaining states of the SD unit (43_streaming.md R144, R146, R151, R152), and what all rows
have in common: where a step stops and how the state moves. -/

namespace Sys2Proof.Machine

/-! ### The step of each state -/

section UnitStep
variable {u : SdUnit} (delim : Bool) (now : Nat) (b : Byte)

theorem sdStepUnit_idle_undelimited (hs : u.state = .idle) :
    sdStepUnit false now b u = quiet
      { u.setMem .hdr (u.hdr.write 0 b) with crc := crcStep u.crc b, cnt := 1, state := .hdr } := by
  simp [sdStepUnit, hs, stepIdle, SdUnit.store_inside b (show 0 < Space.hdr.size by decide),
    SdUnit.mem]

theorem sdStepUnit_hdr (hs : u.state = .hdr) (hc : u.cnt.toNat ≤ 2) :
    sdStepUnit delim now b u =
      if u.cnt.toNat = 2 then
        if (u.took .hdr b).header.idLen.toNat = 0 then sdError u .length
        else quiet (enter (u.took .hdr b) .msgid)
      else quiet (u.took .hdr b) := by
  have hSize : u.cnt.toNat < Space.hdr.size := Nat.lt_succ_of_le hc
  simp only [sdStepUnit, hs, stepHdr, takeByte_inside b hSize, took_cnt_toNat b hSize,
    Nat.reduceEqDiff]
  rfl

theorem sdStepUnit_checksum (hs : u.state = .checksum) :
    sdStepUnit delim now b u =
      if u.cnt.toNat = 0 then quiet { u with ck0 := b, cnt := 1 }
      else if le16 u.ck0 b ≠ u.crc then sdError u .checksum
      else if delim then quiet (enter u .eot)
      else sdEmit u now := by
  have hStep : sdStepUnit delim now b u = stepChecksum delim now b u := by
    simp only [sdStepUnit, hs]
  exact hStep

theorem sdStepUnit_eot (hs : u.state = .eot) :
    sdStepUnit delim now b u = if b = eot then sdEmit u now else sdError u .framing := by
  simp only [sdStepUnit, hs]
  rfl

end UnitStep

/-- The table determines the step: each row's conditions suffice for it (43_streaming.md R157). -/
theorem SdStepCase.sdStepUnit_eq {delim : Bool} {now : Nat} {b : Byte} {u v : SdUnit}
    {m : Option Msg} {e : Option BlockError} (h : SdStepCase delim now b u v m e) :
    sdStepUnit delim now b u = .ok (v, m, e) := by
  cases h with
  | soh hs hd hb => rw [hd, sdStepUnit_idle_delimited _ _ hs, if_pos hb]; rfl
  | noise hs hd hb => rw [hd, sdStepUnit_idle_delimited _ _ hs, if_neg hb]; rfl
  | first hs hd => rw [hd, sdStepUnit_idle_undelimited _ _ hs]; rfl
  | hdrMore hs hc => rw [sdStepUnit_hdr _ _ _ hs hc.le, if_neg hc.ne]; rfl
  | hdrNoId hs hc hn => rw [sdStepUnit_hdr _ _ _ hs hc.le, if_pos hc, if_pos hn]; rfl
  | hdrLast hs hc hn => rw [sdStepUnit_hdr _ _ _ hs hc.le, if_pos hc, if_neg hn]; rfl
  | msgidMore hs hc hn => rw [sdStepUnit_msgid _ _ _ hs hc, if_neg hn]; rfl
  | msgidLast hs hc hn => rw [sdStepUnit_msgid _ _ _ hs hc, if_pos hn]; rfl
  | offsetMore hs hc => rw [sdStepUnit_offset _ _ _ hs (by omega), if_neg (by omega)]; rfl
  | offsetLast hs hc => rw [sdStepUnit_offset _ _ _ hs (by omega), if_pos hc]; rfl
  | payloadMore hs hc hm => rw [sdStepUnit_payload _ _ _ hs hc, if_neg hm]; rfl
  | payloadLast hs hc hm => rw [sdStepUnit_payload _ _ _ hs hc, if_pos hm]; rfl
  | checksumLow hs hc => rw [sdStepUnit_checksum _ _ _ hs, if_pos hc]; rfl
  | checksumBad hs hc hk => rw [sdStepUnit_checksum _ _ _ hs, if_neg hc, if_pos hk]; rfl
  | checksumGood hs hc hk hd =>
    rw [sdStepUnit_checksum _ _ _ hs, if_neg hc, if_neg (not_not.mpr hk), if_pos hd]; rfl
  | checksumEmit hs hc hk hd =>
    rw [sdStepUnit_checksum _ _ _ hs, if_neg hc, if_neg (not_not.mpr hk), hd]; rfl
  | eotEmit hs hb => rw [sdStepUnit_eot _ _ _ hs, if_pos hb]; rfl
  | eotBad hs hb => rw [sdStepUnit_eot _ _ _ hs, if_neg hb]; rfl

/-! ### The obligations, state by state -/

/-- Settles O30, by the step of `IDLE` and read after write. -/
theorem sdStepIdleTakesTheFirstHeaderByte : Obligations.SdStepIdleTakesTheFirstHeaderByte := by
  intro s b hBuf hs hd
  have hStep := sdStepUnit_idle_undelimited s.ops.now b hs
  rw [← hd] at hStep
  refine ⟨_, execSdStep_next hStep, rfl, rfl, rfl, rfl, ?_, fun sp i => ?_⟩
  · exact s.sd.setMem_ck0 _ _
  · exact SdUnit.load_setMem_write hBuf .hdr 0 b sp i

/-- The low four bits of the third header byte are N. -/
theorem took_hdr_idLen {u : SdUnit} (hBuf : u.BuffersOk) (b : Byte) (hc : u.cnt.toNat = 2) :
    (u.took .hdr b).header.idLen.toNat = b.toNat % 2 ^ 4 := by
  rw [SdUnit.header, headerOf_idLen, SdUnit.took_load hBuf, if_pos ⟨rfl, hc.symm⟩]
  rfl

/-- Settles O32, by the three rows of `HDR`. -/
theorem sdStepTakesHeaderBytes : Obligations.SdStepTakesHeaderBytes := by
  intro s b hBuf hs hc
  have hTook := tookByte_took hBuf .hdr b
  have hSize : s.sd.cnt.toNat < Space.hdr.size := Nat.lt_succ_of_le hc
  by_cases hLast : s.sd.cnt.toNat = 2
  · by_cases hN : b.toNat % 2 ^ 4 = 0
    · have hRow := SdStepCase.hdrNoId (delim := s.delim) (now := s.ops.now) hs hLast
        ((took_hdr_idLen hBuf b hLast).trans hN)
      refine ⟨_, _, execSdStep_next hRow.sdStepUnit_eq, rfl, ?_⟩
      rw [if_pos ⟨hLast, hN⟩]
      exact ⟨rfl, rfl⟩
    · have hRow := SdStepCase.hdrLast (delim := s.delim) (now := s.ops.now) hs hLast
        (mt (took_hdr_idLen hBuf b hLast).symm.trans hN)
      refine ⟨_, _, execSdStep_next hRow.sdStepUnit_eq, rfl, ?_⟩
      rw [if_neg fun h => hN h.2, if_pos hLast]
      exact ⟨rfl, hTook.enter _, rfl, rfl⟩
  · have hRow := SdStepCase.hdrMore (delim := s.delim) (now := s.ops.now) (b := b) hs (by omega)
    refine ⟨_, _, execSdStep_next hRow.sdStepUnit_eq, rfl, ?_⟩
    rw [if_neg fun h => hLast h.1, if_neg hLast]
    exact ⟨rfl, hTook, (s.sd.took_state _ b).trans hs, took_cnt_toNat b hSize⟩

/-- Settles O36, by the four rows of `CHECKSUM`. -/
theorem sdStepComparesTheChecksum : Obligations.SdStepComparesTheChecksum := by
  refine ⟨fun s b hs hc => ?_, fun s b hs hc => ?_⟩
  · exact execSdStep_next (SdStepCase.checksumLow hs (by rw [hc]; rfl)).sdStepUnit_eq
  · have hOne : s.sd.cnt.toNat ≠ 0 := by rw [hc]; decide
    have hMatch : s.sd.ck0.toNat + 256 * b.toNat = s.sd.crc.toNat ↔ le16 s.sd.ck0 b = s.sd.crc := by
      rw [← le16_toNat, BitVec.toNat_inj]
    by_cases hk : le16 s.sd.ck0 b = s.sd.crc
    · rw [if_neg (not_not.mpr (hMatch.mpr hk))]
      by_cases hd : s.delim = true
      · rw [if_pos hd]
        exact execSdStep_next (SdStepCase.checksumGood hs hOne hk hd).sdStepUnit_eq
      · rw [if_neg hd]
        exact execSdStep_next (SdStepCase.checksumEmit hs hOne hk
          (Bool.eq_false_of_not_eq_true hd)).sdStepUnit_eq
    · rw [if_pos (mt hMatch.mp hk)]
      exact execSdStep_next (SdStepCase.checksumBad hs hOne hk).sdStepUnit_eq

/-- Settles O37, by the two rows of `EOT`. -/
theorem sdStepChecksTheEndDelimiter : Obligations.SdStepChecksTheEndDelimiter := by
  intro s b hs
  by_cases hb : b = 0x04#8
  · rw [if_pos hb]
    exact execSdStep_next (SdStepCase.eotEmit hs hb).sdStepUnit_eq
  · rw [if_neg hb]
    exact execSdStep_next (SdStepCase.eotBad hs hb).sdStepUnit_eq

/-- Settles O45: a step stops only in a state that writes a buffer, and then names that buffer. -/
theorem sdStepStopsOnlyOutsideABuffer : Obligations.SdStepStopsOnlyOutsideABuffer := by
  intro s b outside stopsAt
  have hStops (sp : Space) (hs : s.sd.state = sp.writer) (hOut : s.sd.Outside) : stopsAt sp := by
    rcases execSdStep_cases b s with ⟨hIn, -⟩ | ⟨-, sp', hs', hFault⟩
    · exact absurd hOut hIn
    · obtain rfl : sp = sp' := by
        rw [hs] at hs'
        cases sp <;> cases sp' <;> first | rfl | cases hs'
      exact hFault
  refine ⟨fun hIn => ?_, fun h => hStops .hdr h.1 (.inl h), fun h => hStops .id h.1 (.inr (.inl h)),
    fun h => hStops .off h.1 (.inr (.inr (.inl h))),
    fun h => hStops .pay h.1 (.inr (.inr (.inr h)))⟩
  rcases execSdStep_cases b s with ⟨-, v, m, e, hNext, -⟩ | ⟨hOut, -⟩
  · exact ⟨_, hNext⟩
  · exact absurd hOut hIn

/-! ### The order of the states (43_streaming.md section 5) -/

/-- What follows the offset stands later than it. -/
theorem offset_lt_afterOffset (u : SdUnit) : 3 < (sdStateNumber (afterOffset u)).toNat := by
  unfold afterOffset
  split <;> decide

theorem SdStepCase.forward {delim : Bool} {now : Nat} {b : Byte} {u v : SdUnit}
    (h : SdStepCase delim now b u v none none) :
    (sdStateNumber u.state).toNat < (sdStateNumber v.state).toNat ∨
      (v.state = u.state ∧ v.cnt.toNat = u.cnt.toNat + 1) ∨ v = u := by
  have hTook {sp : Space} (hc : u.cnt.toNat < sp.size) :
      (u.took sp b).state = u.state ∧ (u.took sp b).cnt.toNat = u.cnt.toNat + 1 :=
    ⟨u.took_state sp b, took_cnt_toNat b hc⟩
  cases h with
  | noise => exact .inr (.inr rfl)
  | hdrMore hs hc => exact .inr (.inl (hTook (hc.trans (by decide))))
  | msgidMore hs hc => exact .inr (.inl (hTook hc))
  | offsetMore hs hc => exact .inr (.inl (hTook (by rw [hc]; decide)))
  | payloadMore hs hc => exact .inr (.inl (hTook hc))
  | checksumLow hs hc => exact .inr (.inl ⟨rfl, by rw [hc]; rfl⟩)
  | soh hs | first hs | hdrLast hs | payloadLast hs | checksumGood hs =>
    simp [hs, sdStateNumber]
  | msgidLast hs =>
    left
    rw [hs, enter_state]
    split
    · decide
    · exact lt_trans (by decide) (offset_lt_afterOffset u)
  | offsetLast hs =>
    rw [hs]
    exact .inl (offset_lt_afterOffset u)

/-- Settles O41, by the rows that report nothing. -/
theorem sdStateMovesForward : Obligations.SdStateMovesForward := by
  intro s t b hNext hResp
  obtain ⟨m, e, hRow, hOnly⟩ := exec_sdStep_answers hNext
  rw [hOnly] at hResp
  cases State.respond_responses_inj rfl hResp
  exact hRow.forward

end Sys2Proof.Machine
end

section
/-! The command word (30_encoding.md part B), one step, and what every command leaves and answers
(10_state.md sections 5 and 6). -/

namespace Sys2Proof.Machine

/-! ### The command word -/

/-- A word decodes to a command exactly when it is one of its words (30_encoding.md R81, R82,
R85). -/
theorem decode_wordOf_ok_iff (op imm8 : Byte) (i : Instr) : decode (wordOf op imm8) = .ok i ↔
    op = opcodeByte i ∧ (hasFormatZ i = false → imm8 = operandByte i) := by
  simp only [decode, Laws.opcodeOf_wordOf, Laws.imm8Of_wordOf]
  constructor
  · intro h
    split_ifs at h <;> cases h <;>
      exact ⟨by assumption, by simp [hasFormatZ, operandByte]⟩
  · rintro ⟨rfl, hByte⟩
    cases i with
    | crcStep b | sdStep b => rw [hByte rfl]; rfl
    | crcReset | crcRead | enc | encd | dec | sdReset => rfl

/-- The reserved opcodes (30_encoding.md R87). -/
theorem decode_wordOf_error_iff (op imm8 : Byte) :
    decode (wordOf op imm8) = .error (.reservedOpcode op) ↔
      op ∉ [0x00#8, 0x01#8, 0x02#8, 0x10#8, 0x11#8, 0x12#8, 0x20#8, 0x21#8] := by
  simp only [decode, Laws.opcodeOf_wordOf, Laws.imm8Of_wordOf]
  split_ifs <;> simp_all

/-- Settles O3, by the eight words that decode, and the rest. -/
theorem decodeReadsTheOpcodeAndTheOperandByte : Obligations.DecodeReadsTheOpcodeAndTheOperandByte :=
  ⟨decode_wordOf_ok_iff, decode_wordOf_error_iff⟩

theorem decode_encode (i : Instr) : decode (encode i) = .ok i :=
  (decode_wordOf_ok_iff _ _ i).mpr ⟨rfl, fun _ => rfl⟩

/-- Settles O2: the canonical word is a word of the command. -/
theorem encodeThenDecodeGivesTheCommand : Obligations.EncodeThenDecodeGivesTheCommand :=
  fun i _ => decode_encode i

/-- Settles O1: twelve words, by evaluation. -/
theorem commandWordsDecodeByTheOpcodeMap : Obligations.CommandWordsDecodeByTheOpcodeMap := by
  unfold Obligations.CommandWordsDecodeByTheOpcodeMap
  decide

/-! ### One step -/

section Step
variable {s : State} {rest : List Request}

theorem step_idle (h : s.pending = []) : step s = .next s := by
  simp only [step, State.fetch_nil s h]

theorem step_reset (h : s.pending = .reset :: rest) :
    step s = .next (State.hardwareReset { s with pending := rest }) := by
  simp only [step, State.fetch_reset s h]

theorem step_command {c : Command} {i : Instr} (h : s.pending = .command c :: rest)
    (hWord : decode c.word = .ok i) :
    step s = exec i { s with pending := rest, ops := c.ops } := by
  simp only [step, State.fetch_command s h, hWord]

end Step

/-- Everything that a step can do, by what the host asks next. -/
theorem step_cases (s : State) :
    (s.pending = [] ∧ step s = .next s) ∨
      (∃ rest, s.pending = .reset :: rest ∧
        step s = .next (State.hardwareReset { s with pending := rest })) ∨
      (∃ c rest i, s.pending = .command c :: rest ∧
        step s = exec i { s with pending := rest, ops := c.ops }) ∨
      (∃ c rest, s.pending = .command c :: rest ∧ step s = .next
        ({ s with pending := rest, ops := c.ops }.respond (.error .illegalCommand))) := by
  match h : s.pending with
  | [] => exact .inl ⟨rfl, step_idle h⟩
  | .reset :: rest => exact .inr (.inl ⟨rest, rfl, step_reset h⟩)
  | .command c :: rest =>
    cases hWord : decode c.word with
    | ok i => exact .inr (.inr (.inl ⟨c, rest, i, rfl, step_command h hWord⟩))
    | error e => exact .inr (.inr (.inr ⟨c, rest, rfl, step_reserved h hWord⟩))

/-- Settles O4, by the request that is fetched. -/
theorem stepRunsTheDecodedCommand : Obligations.StepRunsTheDecodedCommand := by
  refine ⟨fun s c rest i h hWord _ => step_command h hWord, fun s w i h => ?_⟩
  rw [decodeTableWord, if_pos (Nat.le_refl 16)] at h
  split at h
  next i' hWord =>
    cases h
    exact step_command (c := ⟨_, s.ops⟩) rfl hWord
  next => cases h

/-- Settles O5, by the step over a reserved word. -/
theorem stepAnswersReservedWordsWithIllegalCommand :
    Obligations.StepAnswersReservedWordsWithIllegalCommand :=
  fun _ _ _ _ h hWord => step_reserved h hWord

/-- Settles O6, by the step over the other two kinds of request. -/
theorem stepOnHardwareResetOrNothing : Obligations.StepOnHardwareResetOrNothing :=
  ⟨fun _ _ h => step_reset h, fun _ h => step_idle h⟩

/-- Settles O7, by the definition of the reset state. -/
theorem resetLeavesTheValuesOfTheResetTable : Obligations.ResetLeavesTheValuesOfTheResetTable :=
  ⟨fun _ => ⟨rfl, rfl, rfl, rfl, rfl, rfl, SdUnit.reset_load⟩, rfl⟩

/-! ### What a command leaves (10_state.md section 6) -/

@[simp] theorem State.conclude_sd (s : State) (r : Except BlockError Response) :
    (s.conclude r).sd = s.sd := by cases r <;> rfl

@[simp] theorem State.conclude_delim (s : State) (r : Except BlockError Response) :
    (s.conclude r).delim = s.delim := by cases r <;> rfl

@[simp] theorem State.conclude_ops (s : State) (r : Except BlockError Response) :
    (s.conclude r).ops = s.ops := by cases r <;> rfl

@[simp] theorem State.conclude_pending (s : State) (r : Except BlockError Response) :
    (s.conclude r).pending = s.pending := by cases r <;> rfl

theorem exec_keeps_sd {i : Instr} {s t : State} (h : exec i s = .next t) (hReset : i ≠ .sdReset)
    (hStep : ∀ b, i ≠ .sdStep b) : t.sd = s.sd := by
  cases i with
  | sdReset => exact absurd rfl hReset
  | sdStep b => exact absurd rfl (hStep b)
  | crcReset | crcStep | crcRead =>
    cases h
    rfl
  | enc | encd | dec =>
    cases h
    exact State.conclude_sd _ _

theorem exec_keeps_interface {i : Instr} {s t : State} (h : exec i s = .next t) :
    t.delim = s.delim ∧ t.ops = s.ops ∧ t.pending = s.pending := by
  cases i with
  | crcReset | crcStep | crcRead | sdReset =>
    cases h
    exact ⟨rfl, rfl, rfl⟩
  | enc | encd | dec =>
    cases h
    exact ⟨State.conclude_delim _ _, State.conclude_ops _ _, State.conclude_pending _ _⟩
  | sdStep b =>
    obtain ⟨m, e, -, hOnly⟩ := exec_sdStep_answers h
    rw [hOnly]
    exact ⟨rfl, rfl, rfl⟩

/-- Settles O17, by what each command leaves. -/
theorem unitsAreWrittenByTheirOwnCommandsOnly :
    Obligations.UnitsAreWrittenByTheirOwnCommandsOnly := by
  refine fun i s t h => ⟨exec_keeps_crcAcc h, fun hReset hStep => ?_, exec_keeps_interface h⟩
  have hUnit := exec_keeps_sd h hReset hStep
  exact ⟨hUnit, fun sp a => by rw [hUnit]⟩

/-! ### What a command answers (10_state.md section 5) -/

/-- What a row of the table reports: nothing, a message, or one of three errors (43_streaming.md
R143). -/
theorem SdStepCase.reply {delim : Bool} {now : Nat} {b : Byte} {u v : SdUnit} {m : Option Msg}
    {e : Option BlockError} (h : SdStepCase delim now b u v m e) :
    Response.stream m e = .stream none none ∨
      (∃ msg, Response.stream m e = .stream (some msg) none) ∨
      Response.stream m e = .stream none (some .checksum) ∨
      Response.stream m e = .stream none (some .length) ∨
      Response.stream m e = .stream none (some .framing) := by
  cases h with
  | checksumEmit | eotEmit => exact .inr (.inl ⟨_, rfl⟩)
  | checksumBad => exact .inr (.inr (.inl rfl))
  | hdrNoId => exact .inr (.inr (.inr (.inl rfl)))
  | eotBad => exact .inr (.inr (.inr (.inr rfl)))
  | soh | noise | first | hdrMore | hdrLast | msgidMore | msgidLast | offsetMore | offsetLast
  | payloadMore | payloadLast | checksumLow | checksumGood => exact .inl rfl

/-- Settles O52, by what each command can do. -/
theorem everyCommandGivesOneResponseOfItsKind :
    Obligations.EveryCommandGivesOneResponseOfItsKind := by
  intro i s t h
  cases i with
  | crcReset | crcStep | crcRead | sdReset =>
    cases h
    exact ⟨_, rfl, rfl⟩
  | enc =>
    rcases execEnc_cases s with ⟨f, -, hNext⟩ | ⟨k, n, -, hNext⟩ <;> cases h.symm.trans hNext
    · exact ⟨_, rfl, .inl ⟨f, rfl⟩⟩
    · exact ⟨_, rfl, .inr ⟨k, n, rfl⟩⟩
  | encd =>
    rcases execEncd_cases s with ⟨f, -, hNext⟩ | ⟨k, n, -, hNext⟩ <;> cases h.symm.trans hNext
    · exact ⟨_, rfl, .inl ⟨wrapFrame f, rfl⟩⟩
    · exact ⟨_, rfl, .inr ⟨k, n, rfl⟩⟩
  | dec =>
    rcases execDec_cases s with ⟨m, -, hNext⟩ | ⟨e, he, -, hNext⟩ <;> cases h.symm.trans hNext
    · exact ⟨_, rfl, .inl ⟨m, rfl⟩⟩
    · exact ⟨_, rfl, .inr (by rcases he with rfl | rfl <;> simp)⟩
  | sdStep b =>
    obtain ⟨m, e, hRow, hOnly⟩ := exec_sdStep_answers h
    exact ⟨_, by rw [hOnly], hRow.reply⟩

/-- The codes of the responses that a command gives (60_exceptions.md R171, R177). -/
theorem exec_responseCode {i : Instr} {s t : State} {r : Response} (h : exec i s = .next t)
    (hResp : t.responses = s.responses ++ [r]) : responseCode r ∈ [0, 1, 2, 3, 4, 15] := by
  obtain ⟨q, hq, hKind⟩ := everyCommandGivesOneResponseOfItsKind i s t h
  obtain rfl : q = r := by simpa [hResp] using hq.symm
  cases i with
  | crcReset | crcStep | crcRead | sdReset =>
    simp [hKind, responseCode, reportedError]
  | enc | encd =>
    rcases hKind with ⟨f, rfl⟩ | ⟨k, n, rfl⟩ <;> simp [responseCode, reportedError, errorCode]
  | dec =>
    rcases hKind with ⟨m, rfl⟩ | rfl | rfl <;> simp [responseCode, reportedError, errorCode]
  | sdStep b =>
    rcases hKind with rfl | ⟨m, rfl⟩ | rfl | rfl | rfl <;>
      simp [responseCode, reportedError, errorCode]

/-- Settles O56, by what a step can do and the kinds of response. -/
theorem heldErrorCodesAreNeverReturned : Obligations.HeldErrorCodesAreNeverReturned := by
  intro s t r h hResp
  rcases step_cases s with
    ⟨-, hStep⟩ | ⟨rest, -, hStep⟩ | ⟨c, rest, i, -, hStep⟩ | ⟨c, rest, -, hStep⟩
  · cases h.symm.trans hStep
    simp at hResp
  · cases h.symm.trans hStep
    simp at hResp
  · exact exec_responseCode (hStep.symm.trans h) hResp
  · cases h.symm.trans hStep
    cases State.respond_responses_inj rfl hResp
    decide

/-- Settles O55, by the two tables. -/
theorem errorAndStateNumbers : Obligations.ErrorAndStateNumbers := by
  refine ⟨fun _ _ => rfl, rfl, rfl, rfl, rfl, rfl, rfl, rfl, rfl, rfl, rfl, rfl, rfl, rfl, rfl, rfl,
    fun e e' h => ?_⟩
  -- Two errors are the same, or both of the validation, or their numbers differ.
  cases e <;> cases e' <;>
    first | exact .inl rfl | exact .inr ⟨_, _, _, _, rfl, rfl⟩ | cases h

end Sys2Proof.Machine
end

section
/-! The invariant of the SD unit (10_state.md R44), kept by every step. -/

namespace Sys2Proof.Machine

/-! ### The invariant, state by state -/

/-- What the invariant says of the registers and the header in each state. -/
def SdUnit.StateOk (delim : Bool) (u : SdUnit) : Prop :=
  match u.state with
  | .idle => u = SdUnit.reset
  | .hdr => u.cnt.toNat ≤ 2 ∧ (delim = false → 1 ≤ u.cnt.toNat)
  | .msgid => u.cnt.toNat < u.header.idLen.toNat
  | .offset => 1 ≤ u.header.idLen.toNat ∧ u.header.offp = true ∧ u.cnt.toNat ≤ 1
  | .payload => 1 ≤ u.header.idLen.toNat ∧ u.cnt.toNat < u.header.payLen.toNat
  | .checksum => 1 ≤ u.header.idLen.toNat ∧ u.cnt.toNat ≤ 1
  | .eot => 1 ≤ u.header.idLen.toNat ∧ delim = true ∧ u.cnt = 0 ∧ ∃ b : Byte, le16 u.ck0 b = u.crc

theorem headerComplete_of_state {u : SdUnit} {st : SdState} (hs : u.state = st)
    (hst : st ≠ .idle ∧ st ≠ .hdr) : u.HeaderComplete := by
  subst hs
  exact hst

theorem SdUnit.Inv.stateOk {delim : Bool} {u : SdUnit} (h : u.Inv delim) : u.StateOk delim := by
  have hNamed {st : SdState} (hs : u.state = st) (hst : st ≠ .idle ∧ st ≠ .hdr) :
      1 ≤ u.header.idLen.toNat := h.named (headerComplete_of_state hs hst)
  unfold SdUnit.StateOk
  cases hs : u.state with
  | idle => exact h.idle hs
  | hdr => exact h.hdr hs
  | msgid => exact (h.msgid hs).2
  | offset => exact ⟨hNamed hs (by decide), h.offset hs⟩
  | payload => exact ⟨hNamed hs (by decide), (h.payload hs).2⟩
  | checksum => exact ⟨hNamed hs (by decide), h.checksum hs⟩
  | eot => exact ⟨hNamed hs (by decide), h.eot hs⟩

theorem SdUnit.inv_of_stateOk {delim : Bool} {u : SdUnit} (hBuf : u.BuffersOk)
    (hState : u.StateOk delim) (hCrc : u.crc = crc16 u.taken) : u.Inv delim := by
  unfold SdUnit.StateOk at hState
  have hNamed : u.HeaderComplete → 1 ≤ u.header.idLen.toNat := by
    rintro ⟨hIdle, hHdr⟩
    cases hs : u.state with
    | idle => exact absurd hs hIdle
    | hdr => exact absurd hs hHdr
    | msgid => rw [hs] at hState; exact Nat.one_le_of_lt hState
    | offset | payload | checksum | eot => rw [hs] at hState; exact hState.1
  exact {
    buffers := hBuf
    idle := fun hs => by rw [hs] at hState; exact hState
    hdr := fun hs => by rw [hs] at hState; exact hState
    msgid := fun hs => by rw [hs] at hState; exact ⟨Nat.one_le_of_lt hState, hState⟩
    offset := fun hs => by rw [hs] at hState; exact hState.2
    payload := fun hs => by rw [hs] at hState; exact ⟨Nat.one_le_of_lt hState.2, hState.2⟩
    checksum := fun hs => by rw [hs] at hState; exact hState.2
    eot := fun hs => by rw [hs] at hState; exact hState.2
    named := hNamed
    folded := hCrc }

theorem SdUnit.reset_inv (delim : Bool) : SdUnit.reset.Inv delim :=
  SdUnit.inv_of_stateOk SdUnit.reset_buffersOk rfl rfl

/-- Under the invariant no count lies outside its buffer (20_memory.md R56). -/
theorem SdUnit.Inv.not_outside {delim : Bool} {u : SdUnit} (h : u.Inv delim) : ¬ u.Outside := by
  have hState := h.stateOk
  rintro (⟨hs, hc⟩ | ⟨hs, hc⟩ | ⟨hs, hc⟩ | ⟨hs, hc⟩) <;>
    simp only [SdUnit.StateOk, hs] at hState <;> omega

/-! ### The bytes taken (10_state.md R28) -/

section Taken
variable {u : SdUnit}

theorem SdUnit.taken_hdr (hs : u.state = .hdr) : u.taken = u.hdr.bytes 0 u.cnt.toNat := by
  simp only [SdUnit.taken, hs]

theorem SdUnit.taken_msgid (hs : u.state = .msgid) :
    u.taken = u.hdr.bytes 0 3 ++ u.id.bytes 0 u.cnt.toNat := by
  simp only [SdUnit.taken, hs]

theorem SdUnit.taken_offset (hs : u.state = .offset) : u.taken =
    u.hdr.bytes 0 3 ++ u.id.bytes 0 u.header.idLen.toNat ++ u.off.bytes 0 u.cnt.toNat := by
  simp only [SdUnit.taken, hs]

theorem SdUnit.taken_payload (hs : u.state = .payload) : u.taken =
    u.hdr.bytes 0 3 ++ u.id.bytes 0 u.header.idLen.toNat ++ u.offsetTaken ++
      u.pay.bytes 0 u.cnt.toNat := by
  simp only [SdUnit.taken, hs]

/-- In the last two states the bytes taken are the whole frame before its checksum. -/
theorem SdUnit.taken_whole (hs : u.state = .checksum ∨ u.state = .eot) : u.taken =
    u.hdr.bytes 0 3 ++ u.id.bytes 0 u.header.idLen.toNat ++ u.offsetTaken ++
      u.pay.bytes 0 u.header.payLen.toNat := by
  rcases hs with hs | hs <;> simp only [SdUnit.taken, hs]

/-- Checksum bytes are not among the bytes taken. -/
theorem SdUnit.taken_checksum (hs : u.state = .checksum) {st : SdState}
    (hst : st = .checksum ∨ st = .eot) (c : BitVec 10) (k : Byte) :
    SdUnit.taken { u with state := st, cnt := c, ck0 := k } = u.taken := by
  rw [SdUnit.taken_whole hst, SdUnit.taken_whole (.inl hs)]
  rfl

/-- After the offset and before the payload, whether or not there is one. -/
theorem SdUnit.taken_enter_afterOffset (u : SdUnit) : (enter u (afterOffset u)).taken =
    u.hdr.bytes 0 3 ++ u.id.bytes 0 u.header.idLen.toNat ++ u.offsetTaken := by
  by_cases hM : 0 < u.header.payLen.toNat
  · rw [SdUnit.taken_payload (by simp [afterOffset, hM])]
    exact List.append_nil _
  · rw [SdUnit.taken_whole (.inl (by simp [afterOffset, hM])), enter_header,
      Nat.eq_zero_of_not_pos hM]
    exact List.append_nil _

end Taken

/-- A byte written behind a run of bytes makes it longer. -/
theorem Memory.bytes_write {m : Memory} (h : m.wf) (n : Nat) (b : Byte) :
    (m.write n b).bytes 0 (n + 1) = m.bytes 0 n ++ [b] := by
  rw [Memory.bytes_succ, Memory.read_write h, if_pos (Nat.zero_add n)]
  congr 1
  refine Memory.bytes_congr fun k hk => ?_
  rw [Memory.read_write h, if_neg (by omega)]

section Kept
variable {delim : Bool} {now : Nat} {b : Byte} {u v : SdUnit} {m : Option Msg}
  {e : Option BlockError}

/-- A step that reports nothing, other than in `IDLE` of delimited mode and in `CHECKSUM`, takes its
byte. -/
theorem SdStepCase.takes (h : SdStepCase delim now b u v none none) (hInv : u.Inv delim)
    (hIdle : u.state = .idle → delim = false) (hSum : u.state ≠ .checksum) :
    v.taken = u.taken ++ [b] ∧ v.crc = crcStep u.crc b := by
  have hBytes {sp : Space} (n : Nat) (hn : u.cnt.toNat = n) :
      ((u.took sp b).mem sp).bytes 0 (n + 1) = (u.mem sp).bytes 0 n ++ [b] := by
    rw [SdUnit.took_mem, if_pos rfl, hn]
    exact Memory.bytes_write (hInv.buffers.mem sp).1 n b
  have hState {sp : Space} {st : SdState} (hs : u.state = st) : (u.took sp b).state = st :=
    (u.took_state sp b).trans hs
  have hBehind (p : List Byte) {l l' : List Byte} (hl : l' = l ++ [b]) :
      p ++ l' = p ++ l ++ [b] := by rw [hl, List.append_assoc]
  cases h with
  | soh hs hd | noise hs hd => exact absurd ((hIdle hs).symm.trans hd) (by decide)
  | checksumLow hs | checksumGood hs => exact absurd hs hSum
  | first hs =>
    rw [hInv.idle hs]
    exact ⟨Memory.bytes_write (by decide) 0 b, rfl⟩
  | hdrMore hs hc =>
    refine ⟨?_, rfl⟩
    rw [SdUnit.taken_hdr (hState hs), took_cnt_toNat (sp := .hdr) b (hc.trans (by decide)),
      SdUnit.taken_hdr hs]
    exact hBytes (sp := .hdr) _ rfl
  | hdrLast hs hc =>
    refine ⟨?_, rfl⟩
    rw [SdUnit.taken_msgid rfl, SdUnit.taken_hdr hs, hc]
    exact (List.append_nil _).trans (hBytes (sp := .hdr) 2 hc)
  | msgidMore hs hc =>
    refine ⟨?_, rfl⟩
    rw [SdUnit.taken_msgid (hState hs), took_cnt_toNat (sp := .id) b hc, SdUnit.taken_msgid hs]
    exact hBehind _ (hBytes (sp := .id) _ rfl)
  | msgidLast hs hc hn =>
    refine ⟨?_, rfl⟩
    have hHeader : (u.took .id b).header = u.header := SdUnit.took_header (by decide) b
    have hWhole : u.hdr.bytes 0 3 ++ (u.took .id b).id.bytes 0 u.header.idLen.toNat =
        u.taken ++ [b] := by
      rw [SdUnit.taken_msgid hs, ← hn]
      exact hBehind _ (hBytes (sp := .id) _ rfl)
    cases hp : u.header.offp with
    | true =>
      rw [if_pos rfl, SdUnit.taken_offset rfl, enter_header, hHeader, ← hWhole]
      exact List.append_nil _
    | false =>
      have hOff : (u.took .id b).offsetTaken = [] := by rw [SdUnit.offsetTaken, hHeader, hp]; rfl
      rw [if_neg Bool.false_ne_true, ← afterOffset_took (sp := .id) (by decide) b,
        SdUnit.taken_enter_afterOffset, hOff, hHeader, List.append_nil]
      exact hWhole
  | offsetMore hs hc =>
    refine ⟨?_, rfl⟩
    rw [SdUnit.taken_offset (hState hs), took_cnt_toNat (sp := .off) b (by rw [hc]; decide),
      SdUnit.taken_offset hs]
    exact hBehind _ (hBytes (sp := .off) _ rfl)
  | offsetLast hs hc =>
    refine ⟨?_, rfl⟩
    have hHeader : (u.took .off b).header = u.header := SdUnit.took_header (by decide) b
    have hOff : (u.took .off b).offsetTaken = u.off.bytes 0 1 ++ [b] := by
      rw [SdUnit.offsetTaken, hHeader, (hInv.offset hs).1]
      exact hBytes (sp := .off) 1 hc
    rw [← afterOffset_took (sp := .off) (by decide) b, SdUnit.taken_enter_afterOffset, hHeader,
      SdUnit.taken_offset hs, hc]
    exact hBehind _ hOff
  | payloadMore hs hc =>
    refine ⟨?_, rfl⟩
    rw [SdUnit.taken_payload (hState hs), took_cnt_toNat (sp := .pay) b hc,
      SdUnit.taken_payload hs]
    exact hBehind _ (hBytes (sp := .pay) _ rfl)
  | payloadLast hs hc hm =>
    refine ⟨?_, rfl⟩
    rw [SdUnit.taken_whole (.inl rfl), SdUnit.taken_payload hs, enter_header,
      SdUnit.took_header (sp := .pay) (by decide), ← hm]
    exact hBehind _ (hBytes (sp := .pay) _ rfl)

/-- In `EOT` every byte is reported (43_streaming.md R152). -/
theorem SdStepCase.quiet_ne_eot (h : SdStepCase delim now b u v none none) : u.state ≠ .eot := by
  cases h with
  | soh hs | noise hs | first hs | hdrMore hs | hdrLast hs | msgidMore hs | msgidLast hs
  | offsetMore hs | offsetLast hs | payloadMore hs | payloadLast hs | checksumLow hs
  | checksumGood hs =>
    rw [hs]
    decide

/-- Such a step does not lead to `EOT`, and to `CHECKSUM` only with no checksum byte yet. -/
theorem SdStepCase.takes_state (h : SdStepCase delim now b u v none none)
    (hSum : u.state ≠ .checksum) :
    v.state ≠ .eot ∧ (v.state = .checksum → v.cnt.toNat = 0) := by
  refine ⟨fun hv => ?_, fun hv => ?_⟩
  · exact hSum (h.enters_eot h.quiet_ne_eot hv).1
  · cases h with
    | soh | first | hdrLast => cases hv
    | noise => exact absurd hv hSum
    | hdrMore | msgidMore | offsetMore | payloadMore => exact absurd (u.took_state _ b ▸ hv) hSum
    | msgidLast | offsetLast | payloadLast => rfl
    | checksumLow hs | checksumGood hs => exact absurd hs hSum

theorem SdStepCase.keeps_buffersOk (h : SdStepCase delim now b u v m e) (hBuf : u.BuffersOk) :
    v.BuffersOk := by
  have hTook {sp : Space} (hc : u.cnt.toNat < sp.size) : (u.took sp b).BuffersOk :=
    SdUnit.took_buffersOk hBuf hc b
  cases h with
  | soh | noise | checksumLow | checksumGood => exact hBuf
  | first => exact SdUnit.buffersOk_setMem_write hBuf (show 0 < Space.hdr.size by decide) b
  | hdrMore hs hc => exact hTook (hc.trans (by decide))
  | hdrLast hs hc => exact hTook (sp := .hdr) (by rw [hc]; decide)
  | msgidMore hs hc | msgidLast hs hc => exact hTook (sp := .id) hc
  | offsetMore hs hc | offsetLast hs hc => exact hTook (sp := .off) (by rw [hc]; decide)
  | payloadMore hs hc | payloadLast hs hc => exact hTook (sp := .pay) hc
  | hdrNoId | checksumBad | checksumEmit | eotEmit | eotBad => exact SdUnit.reset_buffersOk

/-- What follows the offset, under what the header says. -/
theorem stateOk_enter_afterOffset (delim : Bool) (hNamed : 1 ≤ u.header.idLen.toNat) :
    (enter u (afterOffset u)).StateOk delim := by
  unfold afterOffset
  split
  next hM => exact ⟨hNamed, hM⟩
  next => exact ⟨hNamed, Nat.zero_le 1⟩

theorem SdStepCase.keeps_stateOk (h : SdStepCase delim now b u v m e) (hInv : u.Inv delim) :
    v.StateOk delim := by
  have hTook {sp : Space} {st : SdState} (hs : u.state = st) : (u.took sp b).state = st :=
    (u.took_state sp b).trans hs
  have hNamed {st : SdState} (hs : u.state = st) (hst : st ≠ .idle ∧ st ≠ .hdr) :
      1 ≤ u.header.idLen.toNat := hInv.named (headerComplete_of_state hs hst)
  cases h with
  | hdrNoId | checksumBad | checksumEmit | eotEmit | eotBad => exact rfl
  | noise => exact hInv.stateOk
  | soh hs hd =>
    rw [hInv.idle hs]
    exact ⟨Nat.zero_le 2, fun hd' => absurd (hd.symm.trans hd') (by decide)⟩
  | first => exact ⟨Nat.le_succ 1, fun _ => Nat.le_refl 1⟩
  | hdrMore hs hc =>
    rw [SdUnit.StateOk, hTook hs, took_cnt_toNat (sp := .hdr) b (hc.trans (by decide))]
    exact ⟨hc, fun _ => Nat.succ_pos _⟩
  | hdrLast hs hc hn => exact Nat.pos_of_ne_zero hn
  | msgidMore hs hc hn =>
    rw [SdUnit.StateOk, hTook hs, took_cnt_toNat (sp := .id) b hc]
    exact Nat.lt_of_le_of_ne (hInv.msgid hs).2 hn
  | msgidLast hs hc hn =>
    have hNamed : 1 ≤ u.header.idLen.toNat := by omega
    split
    next hp => exact ⟨hNamed, hp, Nat.zero_le 1⟩
    next =>
      rw [← afterOffset_took (sp := .id) (by decide) b]
      exact stateOk_enter_afterOffset delim hNamed
  | offsetMore hs hc =>
    rw [SdUnit.StateOk, hTook hs, took_cnt_toNat (sp := .off) b (by rw [hc]; decide), hc]
    exact ⟨hNamed hs (by decide), (hInv.offset hs).1, Nat.le_refl 1⟩
  | offsetLast hs hc =>
    rw [← afterOffset_took (sp := .off) (by decide) b]
    exact stateOk_enter_afterOffset delim (hNamed hs (by decide))
  | payloadMore hs hc hm =>
    rw [SdUnit.StateOk, hTook hs, took_cnt_toNat (sp := .pay) b hc]
    exact ⟨hNamed hs (by decide), Nat.lt_of_le_of_ne (hInv.payload hs).2 hm⟩
  | payloadLast hs => exact ⟨hNamed hs (by decide), Nat.zero_le 1⟩
  | checksumLow hs =>
    rw [SdUnit.StateOk, hs]
    exact ⟨hNamed hs (by decide), Nat.le_refl 1⟩
  | checksumGood hs hc hk hd => exact ⟨hNamed hs (by decide), hd, rfl, b, hk⟩

theorem SdStepCase.keeps_folded (h : SdStepCase delim now b u v m e) (hInv : u.Inv delim) :
    v.crc = crc16 v.taken := by
  have hFold (hm : m = none) (he : e = none) (hIdle : u.state = .idle → delim = false)
      (hSum : u.state ≠ .checksum) : v.crc = crc16 v.taken := by
    subst hm he
    obtain ⟨hTaken, hCrc⟩ := h.takes hInv hIdle hSum
    rw [hTaken, hCrc, crc16_append_singleton, hInv.folded]
  cases h with
  | hdrNoId | checksumBad | checksumEmit | eotEmit | eotBad => rfl
  | soh hs =>
    rw [hInv.idle hs]
    rfl
  | noise => exact hInv.folded
  | checksumLow hs =>
    exact hInv.folded.trans (congrArg crc16 (SdUnit.taken_checksum hs (.inl hs) 1 b).symm)
  | checksumGood hs =>
    exact hInv.folded.trans (congrArg crc16 (SdUnit.taken_checksum hs (.inr rfl) 0 u.ck0).symm)
  | first hs hd => exact hFold rfl rfl (fun _ => hd) (by simp [hs])
  | hdrMore hs | hdrLast hs | msgidMore hs | msgidLast hs | offsetMore hs | offsetLast hs
  | payloadMore hs | payloadLast hs => exact hFold rfl rfl (by simp [hs]) (by simp [hs])

/-- A step of the unit keeps its invariant. -/
theorem SdStepCase.keeps_inv (h : SdStepCase delim now b u v m e) (hInv : u.Inv delim) :
    v.Inv delim :=
  SdUnit.inv_of_stateOk (h.keeps_buffersOk hInv.buffers) (h.keeps_stateOk hInv)
    (h.keeps_folded hInv)

end Kept

/-! ### The machine -/

/-- From a state with the invariant `SD.STEP` does not stop. -/
theorem exec_answers {s : State} (h : s.Inv) (i : Instr) : ∃ t, exec i s = .next t := by
  cases i with
  | crcReset | crcStep | crcRead | enc | encd | dec | sdReset => exact ⟨_, rfl⟩
  | sdStep b =>
    rcases execSdStep_cases b s with ⟨-, v, m, e, hNext, -⟩ | ⟨hOut, -⟩
    · exact ⟨_, hNext⟩
    · exact absurd hOut h.not_outside

theorem exec_keeps_inv {i : Instr} {s t : State} (hInv : s.Inv) (h : exec i s = .next t) :
    t.Inv := by
  obtain ⟨hDelim, -⟩ := exec_keeps_interface h
  rw [State.Inv, hDelim]
  by_cases hReset : i = .sdReset
  · subst hReset
    cases h
    exact SdUnit.reset_inv s.delim
  by_cases hStep : ∃ b, i = .sdStep b
  · obtain ⟨b, rfl⟩ := hStep
    obtain ⟨m, e, hRow⟩ := exec_sdStep_row h
    exact hRow.keeps_inv hInv
  · rw [exec_keeps_sd h hReset (not_exists.mp hStep)]
    exact hInv

/-- Settles O42: the reset unit has the invariant in either mode. -/
theorem invariantHoldsAtReset : Obligations.InvariantHoldsAtReset :=
  ⟨SdUnit.reset_inv, SdUnit.reset_inv false⟩

/-- Settles O43, by the rows of the unit and by what the other requests leave of it. -/
theorem invariantIsKeptByEveryStep : Obligations.InvariantIsKeptByEveryStep := by
  intro s t hInv h
  rcases step_cases s with
    ⟨-, hStep⟩ | ⟨rest, -, hStep⟩ | ⟨c, rest, i, -, hStep⟩ | ⟨c, rest, -, hStep⟩
  · cases h.symm.trans hStep
    exact hInv
  · cases h.symm.trans hStep
    exact SdUnit.reset_inv s.delim
  · exact exec_keeps_inv (s := { s with pending := rest, ops := c.ops }) hInv (hStep.symm.trans h)
  · cases h.symm.trans hStep
    exact hInv

/-- Settles O44: only `SD.STEP` could stop, and does so outside a buffer alone. -/
theorem everyStepAnswersUnderTheInvariant : Obligations.EveryStepAnswersUnderTheInvariant := by
  intro s hInv
  rcases step_cases s with
    ⟨-, hStep⟩ | ⟨rest, -, hStep⟩ | ⟨c, rest, i, -, hStep⟩ | ⟨c, rest, -, hStep⟩
  · exact ⟨_, hStep⟩
  · exact ⟨_, hStep⟩
  · rw [hStep]
    exact exec_answers (s := { s with pending := rest, ops := c.ops }) hInv i
  · exact ⟨_, hStep⟩

end Sys2Proof.Machine
end

section
/-! The bytes of a frame attempt (43_streaming.md section 5): what the unit has received, how much
is left, and the message it will emit, which is the one that `DEC` reads from the same bytes. -/

namespace Sys2Proof.Machine

/-! ### The fields in the buffers -/

/-- The fields of the frame, as the buffers hold them once all have been taken. -/
def SdUnit.fields (u : SdUnit) : WireFields :=
  ⟨u.load .hdr 0, u.load .hdr 1, u.load .hdr 2, u.id.bytes 0 u.header.idLen.toNat, u.offsetTaken,
    u.pay.bytes 0 u.header.payLen.toNat⟩

section Buffers
variable {delim : Bool} {u : SdUnit}

theorem hdr_bytes_three (u : SdUnit) :
    u.hdr.bytes 0 3 = [u.load .hdr 0, u.load .hdr 1, u.load .hdr 2] := rfl

theorem header_eq_headerAt_bytes (u : SdUnit) : u.header = headerAt (u.hdr.bytes 0 3) := rfl

/-- The third header byte completes the header. -/
theorem took_hdr_bytes (hBuf : u.BuffersOk) (b : Byte) (hs : u.state = .hdr)
    (hc : u.cnt.toNat = 2) : (u.took .hdr b).hdr.bytes 0 3 = u.taken ++ [b] := by
  have hWrite : (u.took .hdr b).hdr = u.hdr.write 2 b := hc ▸ rfl
  rw [hWrite, SdUnit.taken_hdr hs, hc]
  exact Memory.bytes_write (hBuf.mem .hdr).1 2 b

theorem SdUnit.fields_body (hs : u.state = .checksum ∨ u.state = .eot) :
    u.fields.body = u.taken := by
  rw [SdUnit.taken_whole hs, hdr_bytes_three]
  rfl

theorem SdUnit.length_offsetTaken (u : SdUnit) :
    u.offsetTaken.length = 2 * bit u.header.offp := by
  cases hp : u.header.offp <;> simp [SdUnit.offsetTaken, hp, bit]

theorem SdUnit.fields_fits (hNamed : 1 ≤ u.header.idLen.toNat) : u.fields.Fits where
  id := Memory.length_bytes _ _ _
  off := u.length_offsetTaken
  pay := Memory.length_bytes _ _ _
  named := Nat.ne_of_gt hNamed

/-- The emitted message is what the fields say. -/
theorem SdUnit.fields_message (u : SdUnit) (now : Nat) : u.fields.message now = sdMsg u now := by
  refine messageOf_congr_offset _ _ _ fun hp => ?_
  have hOff : u.offsetTaken = [u.load .off 0, u.load .off 1] := by
    have hp : u.header.offp = true := hp
    rw [SdUnit.offsetTaken, if_pos hp]
    rfl
  change le16 (byteAt u.offsetTaken 0) (byteAt u.offsetTaken 1) = _
  rw [hOff]
  rfl

theorem headerComplete_of_last (hs : u.state = .checksum ∨ u.state = .eot) : u.HeaderComplete := by
  rcases hs with hs | hs <;> exact headerComplete_of_state hs (by decide)

/-- `DEC` reads the emitted message from the bytes that the unit has taken and their checksum. -/
theorem decodeFrame_taken (hInv : u.Inv delim) (hs : u.state = .checksum ∨ u.state = .eot)
    (now : Nat) : decodeFrame (sealBody u.taken) now = .ok (sdMsg u now) := by
  have hNamed := hInv.named (headerComplete_of_last hs)
  rw [← SdUnit.fields_body hs, decodeFrame_sealBody (SdUnit.fields_fits hNamed),
    SdUnit.fields_message]

end Buffers

/-! ### The bytes received -/

/-- All bytes of the current frame attempt, those of the checksum included. -/
def SdUnit.received (u : SdUnit) : List Byte :=
  if u.state = .eot then sealBody u.taken
  else if u.state = .checksum ∧ u.cnt.toNat ≠ 0 then u.taken ++ [u.ck0]
  else u.taken

section Received
variable {delim : Bool} {now : Nat} {b : Byte} {u v : SdUnit} {m : Option Msg}
  {e : Option BlockError}

theorem SdUnit.received_eq_taken (hEot : u.state ≠ .eot)
    (hSum : u.state = .checksum → u.cnt.toNat = 0) : u.received = u.taken := by
  rw [SdUnit.received, if_neg hEot, if_neg fun h => h.2 (hSum h.1)]

theorem SdUnit.received_kept (hs : u.state = .checksum) (hc : u.cnt.toNat ≠ 0) :
    u.received = u.taken ++ [u.ck0] := by
  rw [SdUnit.received, if_neg (by simp [hs]), if_pos ⟨hs, hc⟩]

theorem SdUnit.received_eot (hs : u.state = .eot) : u.received = sealBody u.taken := by
  rw [SdUnit.received, if_pos hs]

/-- A good checksum seals the bytes taken. -/
theorem sealBody_taken (hInv : u.Inv delim) (hs : u.state = .checksum) (hc : u.cnt.toNat ≠ 0)
    (hk : le16 u.ck0 b = u.crc) : sealBody u.taken = u.received ++ [b] := by
  rw [SdUnit.received_kept hs hc, sealBody, ← hInv.folded, ← hk, le16Bytes, lo8_le16, hi8_le16,
    List.append_assoc]
  rfl

/-- A step that reports nothing receives its byte, except before a frame in delimited mode. -/
theorem SdStepCase.receives (h : SdStepCase delim now b u v none none) (hInv : u.Inv delim)
    (hIdle : u.state = .idle → delim = false) : v.received = u.received ++ [b] := by
  by_cases hSum : u.state = .checksum
  · cases h with
    | checksumLow hs hc =>
      have hKept :=
        SdUnit.received_kept (u := { u with ck0 := b, cnt := 1 }) hs (Nat.succ_ne_zero 0)
      rw [hKept, SdUnit.received_eq_taken (u := u) (by simp [hs]) fun _ => hc]
      exact congrArg (· ++ [b]) (SdUnit.taken_checksum hs (.inl hs) 1 b)
    | checksumGood hs hc hk =>
      rw [← sealBody_taken hInv hs hc hk, SdUnit.received_eot rfl]
      exact congrArg sealBody (SdUnit.taken_checksum hs (.inr rfl) 0 u.ck0)
    | soh hs | noise hs | first hs | hdrMore hs | hdrLast hs | msgidMore hs | msgidLast hs
    | offsetMore hs | offsetLast hs | payloadMore hs | payloadLast hs => cases hs.symm.trans hSum
  · obtain ⟨hEot, hCnt⟩ := h.takes_state hSum
    rw [SdUnit.received_eq_taken hEot hCnt, SdUnit.received_eq_taken h.quiet_ne_eot (absurd · hSum)]
    exact (h.takes hInv hIdle hSum).1

theorem SdUnit.received_eq_taken_append (u : SdUnit) : ∃ r, u.received = u.taken ++ r := by
  unfold SdUnit.received
  split
  · exact ⟨_, rfl⟩
  · split
    · exact ⟨_, rfl⟩
    · exact ⟨[], (List.append_nil _).symm⟩

/-- Once the header is complete, it is that of the bytes received. -/
theorem SdUnit.headerAt_received (h : u.HeaderComplete) (l : List Byte) :
    headerAt (u.received ++ l) = u.header := by
  obtain ⟨r, hr⟩ := u.received_eq_taken_append
  have ⟨q, hq⟩ : ∃ q, u.taken = u.hdr.bytes 0 3 ++ q := by
    cases hs : u.state with
    | idle => exact absurd hs h.1
    | hdr => exact absurd hs h.2
    | msgid => exact ⟨_, SdUnit.taken_msgid hs⟩
    | offset => exact ⟨_, by rw [SdUnit.taken_offset hs, List.append_assoc]⟩
    | payload => exact ⟨_, by rw [SdUnit.taken_payload hs, List.append_assoc, List.append_assoc]⟩
    | checksum =>
      exact ⟨_, by rw [SdUnit.taken_whole (.inl hs), List.append_assoc, List.append_assoc]⟩
    | eot => exact ⟨_, by rw [SdUnit.taken_whole (.inr hs), List.append_assoc, List.append_assoc]⟩
  rw [hr, hq, hdr_bytes_three]
  rfl

/-- The bytes received and the bytes left make up the frame, and the end delimiter. -/
theorem SdUnit.length_received (hInv : u.Inv delim) (h : u.HeaderComplete) :
    u.received.length + bytesLeft delim u = frameLen u.header + bit delim := by
  have hOff := u.length_offsetTaken
  have hWhole (hs : u.state = .checksum ∨ u.state = .eot) : u.taken.length =
      3 + u.header.idLen.toNat + 2 * bit u.header.offp + u.header.payLen.toNat := by
    simp only [SdUnit.taken_whole hs, List.length_append, Memory.length_bytes, hOff]
  cases hs : u.state with
  | idle => exact absurd hs h.1
  | hdr => exact absurd hs h.2
  | msgid =>
    have hCnt := (hInv.msgid hs).2
    rw [SdUnit.received_eq_taken (by simp [hs]) (by simp [hs]), SdUnit.taken_msgid hs]
    simp only [bytesLeft, hs, frameLen, List.length_append, Memory.length_bytes]
    omega
  | offset =>
    obtain ⟨hp, hCnt⟩ := hInv.offset hs
    rw [SdUnit.received_eq_taken (by simp [hs]) (by simp [hs]), SdUnit.taken_offset hs]
    simp only [bytesLeft, hs, frameLen, List.length_append, Memory.length_bytes, hp,
      show bit true = 1 from rfl]
    omega
  | payload =>
    have hCnt := (hInv.payload hs).2
    rw [SdUnit.received_eq_taken (by simp [hs]) (by simp [hs]), SdUnit.taken_payload hs]
    simp only [bytesLeft, hs, frameLen, List.length_append, Memory.length_bytes, hOff]
    omega
  | checksum =>
    have hCnt := hInv.checksum hs
    have hLen : u.received.length = u.taken.length + u.cnt.toNat := by
      by_cases hc : u.cnt.toNat = 0
      · rw [SdUnit.received_eq_taken (by simp [hs]) fun _ => hc, hc, Nat.add_zero]
      · rw [SdUnit.received_kept hs hc, List.length_append, List.length_singleton]
        omega
    rw [hLen, hWhole (.inl hs)]
    simp only [bytesLeft, hs, frameLen]
    omega
  | eot =>
    obtain ⟨hDelim, -⟩ := hInv.eot hs
    rw [SdUnit.received_eot hs, sealBody_length, hWhole (.inr hs)]
    simp only [bytesLeft, hs, frameLen, hDelim, show bit true = 1 from rfl]
    omega

end Received

/-! ### The obligations -/

/-- What is left when the header has just been completed: every other byte of the frame, and the end
delimiter. -/
theorem SdStepCase.bytesLeft_of_header {delim : Bool} {now : Nat} {b : Byte} {u v : SdUnit}
    {m : Option Msg} (h : SdStepCase delim now b u v m none) (hs : u.state = .hdr)
    (hc : u.cnt.toNat = 2) : bytesLeft delim v =
      v.header.idLen.toNat + 2 * bit v.header.offp + v.header.payLen.toNat + 2 + bit delim := by
  cases h with
  | hdrLast => rfl
  | hdrMore _ hc' => omega
  | soh hs' | noise hs' | first hs' | msgidMore hs' | msgidLast hs' | offsetMore hs'
  | offsetLast hs' | payloadMore hs' | payloadLast hs' | checksumLow hs' | checksumGood hs'
  | checksumEmit hs' | eotEmit hs' => cases hs.symm.trans hs'

/-- What is left when the second checksum byte comes. -/
theorem bytesLeft_of_kept {delim : Bool} {u : SdUnit} (hInv : u.Inv delim)
    (hs : u.state = .checksum) (hc : u.cnt.toNat ≠ 0) : bytesLeft delim u = 1 + bit delim := by
  have hOne := hInv.checksum hs
  simp only [bytesLeft, hs]
  omega

theorem headerComplete_iff (u : SdUnit) :
    u.HeaderComplete ↔ 1 < (sdStateNumber u.state).toNat := by
  cases hs : u.state <;> simp [SdUnit.HeaderComplete, hs, sdStateNumber]

/-- A complete header stays complete until a report. -/
theorem SdStepCase.keeps_headerComplete {delim : Bool} {now : Nat} {b : Byte} {u v : SdUnit}
    (h : SdStepCase delim now b u v none none) (hHeader : u.HeaderComplete) :
    v.HeaderComplete := by
  rw [headerComplete_iff] at hHeader ⊢
  rcases h.forward with hLater | ⟨hSame, -⟩ | rfl
  · exact hHeader.trans hLater
  · rwa [hSame]
  · exact hHeader

/-- A step that reports nothing takes one of the bytes left: the byte is received, and the length of
the frame is fixed by the header. -/
theorem SdStepCase.bytesLeft_succ {delim : Bool} {now : Nat} {b : Byte} {u v : SdUnit}
    (h : SdStepCase delim now b u v none none) (hInv : u.Inv delim) (hHeader : u.HeaderComplete) :
    bytesLeft delim v + 1 = bytesLeft delim u := by
  have hReceived := h.receives hInv fun hs => absurd hs hHeader.1
  have hComplete := h.keeps_headerComplete hHeader
  have hSame : v.header = u.header := by
    rw [← SdUnit.headerAt_received hComplete [], hReceived, List.append_nil,
      SdUnit.headerAt_received hHeader]
  have hBefore := SdUnit.length_received hInv hHeader
  have hAfter := SdUnit.length_received (h.keeps_inv hInv) hComplete
  rw [hReceived, hSame, List.length_append, List.length_singleton] at hAfter
  omega

/-- A message comes with the last byte. -/
theorem SdStepCase.bytesLeft_of_message {delim : Bool} {now : Nat} {b : Byte} {u v : SdUnit}
    {m : Msg} {e : Option BlockError} (h : SdStepCase delim now b u v (some m) e)
    (hInv : u.Inv delim) : bytesLeft delim u = 1 := by
  cases h with
  | checksumEmit hs hc _ hd =>
    rw [bytesLeft_of_kept hInv hs hc, hd]
    rfl
  | eotEmit hs => simp only [bytesLeft, hs]

theorem SdStepCase.of_checksum_error {delim : Bool} {now : Nat} {b : Byte} {u v : SdUnit}
    {m : Option Msg} (h : SdStepCase delim now b u v m (some .checksum)) :
    u.state = .checksum ∧ u.cnt.toNat ≠ 0 := by
  cases h with
  | checksumBad hs hc => exact ⟨hs, hc⟩

/-- Settles O50, by the row that the step takes. -/
theorem bytesLeftOfAFrameAttempt : Obligations.BytesLeftOfAFrameAttempt := by
  intro s t b m e hInv hNext hResp
  obtain ⟨m', e', hRow, hOnly⟩ := exec_sdStep_answers hNext
  have hAnswer := congrArg State.responses hOnly
  cases State.respond_responses_inj rfl (hAnswer.symm.trans hResp)
  obtain ⟨hDelim, -⟩ := exec_keeps_interface hNext
  rw [hDelim]
  refine ⟨?_, ?_, fun hm => ?_, ?_, ?_⟩
  · rintro hs hc rfl
    exact hRow.bytesLeft_of_header hs hc
  · rintro hHeader rfl rfl
    exact hRow.bytesLeft_succ hInv hHeader
  · obtain ⟨m, rfl⟩ := Option.ne_none_iff_exists'.mp hm
    exact hRow.bytesLeft_of_message hInv
  · rintro rfl
    obtain ⟨hs, -⟩ := hRow.of_framing
    simp only [bytesLeft, hs]
  · rintro rfl
    obtain ⟨hs, hc⟩ := hRow.of_checksum_error
    exact bytesLeft_of_kept hInv hs hc

/-- What a decoder reads from fields that fit is legal and consistent (10_state.md R39). -/
theorem WireFields.Fits.message_legal {w : WireFields} (h : w.Fits) (now : Nat) :
    let m := w.message now
    1 ≤ m.id.length ∧ m.id.length ≤ 15 ∧ m.payload.length ≤ 1023 ∧
      m.ack = decide (m.ackNum ≠ 0) ∧ m.timestamp = now := by
  have hNamed := h.named
  have hId := h.id
  have hPay := h.pay
  refine ⟨?_, ?_, ?_, ?_, rfl⟩
  · change 1 ≤ w.id.length
    omega
  · change w.id.length ≤ 15
    omega
  · change w.pay.length ≤ 1023
    omega
  · change (w.header.ackNum != 0) = decide (w.header.ackNum ≠ 0)
    rw [Bool.eq_iff_iff, bne_iff_ne, decide_eq_true_iff]

/-- The messages that a row of the table emits. -/
theorem SdStepCase.message_eq {delim : Bool} {now : Nat} {b : Byte} {u v : SdUnit}
    {m : Msg} {e : Option BlockError} (h : SdStepCase delim now b u v (some m) e) :
    m = sdMsg u now ∧ (u.state = .checksum ∨ u.state = .eot) := by
  cases h with
  | checksumEmit hs => exact ⟨rfl, .inl hs⟩
  | eotEmit hs => exact ⟨rfl, .inr hs⟩

/-- Settles O54: both decoders read a message from fields that fit. -/
theorem deliveredMessagesAreLegal : Obligations.DeliveredMessagesAreLegal := by
  intro i s t r m hInv hNext hResp hMsg
  obtain ⟨q, hq, hKind⟩ := everyCommandGivesOneResponseOfItsKind i s t hNext
  obtain rfl : q = r := by simpa [hResp] using hq.symm
  cases i with
  | crcReset | crcStep | crcRead | sdReset =>
    rw [hKind] at hMsg
    cases hMsg
  | enc | encd => rcases hKind with ⟨f, rfl⟩ | ⟨k, n, rfl⟩ <;> cases hMsg
  | dec =>
    rcases execDec_cases s with ⟨m', hOk, hDec⟩ | ⟨e, -, -, hDec⟩ <;>
      cases hNext.symm.trans hDec <;> cases State.respond_responses_inj rfl hResp <;> cases hMsg
    obtain ⟨w, hFits, -, rfl⟩ := exists_fields_of_decodeFrame hOk
    exact hFits.message_legal s.ops.now
  | sdStep b =>
    obtain ⟨m', e, hRow, hOnly⟩ := exec_sdStep_answers hNext
    cases State.respond_responses_inj rfl ((congrArg State.responses hOnly).symm.trans hResp)
    obtain rfl : m' = some m := hMsg
    obtain ⟨rfl, hs⟩ := hRow.message_eq
    rw [← SdUnit.fields_message]
    exact (SdUnit.fields_fits (hInv.named (headerComplete_of_last hs))).message_legal _

end Sys2Proof.Machine
end

section
/-! A frame fed to the SD unit byte by byte gives what `DEC` gives for the whole of it
(43_streaming.md section 5). -/

namespace Sys2Proof.Machine

/-! ### A frame that `DEC` accepts, inside the unit -/

/-- The unit has received the frame `f` up to the bytes `bs`, which it has still to receive. -/
structure SdUnit.Follows (delim : Bool) (f bs : List Byte) (u : SdUnit) : Prop where
  inv : u.Inv delim
  started : u.state = .idle → delim = false
  received : u.received ++ bs = f

section Follows
variable {delim : Bool} {now time : Nat} {b : Byte} {f bs : List Byte} {u v : SdUnit} {msg : Msg}
  {m : Option Msg} {e : Option BlockError}

/-- After a complete header what is left is the rest of the frame, and the end delimiter. -/
theorem SdUnit.Follows.bytesLeft (h : u.Follows delim f bs) (hOk : decodeFrame f time = .ok msg)
    (hHeader : u.HeaderComplete) : bytesLeft delim u = bs.length + bit delim := by
  obtain ⟨-, -, -, hLen, -⟩ := (decodeFrame_ok_iff f time msg).mp hOk
  have hParts := SdUnit.length_received h.inv hHeader
  rw [← h.received, SdUnit.headerAt_received hHeader, List.length_append] at hLen
  omega

/-- A unit that has received a whole frame has a complete header. -/
theorem SdUnit.Follows.headerComplete (h : u.Follows delim f [])
    (hOk : decodeFrame f time = .ok msg) : u.HeaderComplete := by
  obtain ⟨hLong, -⟩ := (decodeFrame_ok_iff f time msg).mp hOk
  rw [← h.received, List.append_nil] at hLong
  constructor <;> intro hs <;>
    rw [SdUnit.received_eq_taken (by simp [hs]) (by simp [hs])] at hLong
  · rw [h.inv.idle hs] at hLong
    exact absurd hLong (by decide)
  · have hCnt := (h.inv.hdr hs).1
    rw [SdUnit.taken_hdr hs, Memory.length_bytes] at hLong
    omega

/-- Only `EOT` comes after a whole frame: in every other state a byte of the frame is left. -/
theorem SdUnit.Follows.at_end (h : u.Follows delim f []) (hOk : decodeFrame f time = .ok msg) :
    u.state = .eot := by
  have hHeader := h.headerComplete hOk
  have hLeft := h.bytesLeft hOk hHeader
  simp only [Machine.bytesLeft, List.length_nil] at hLeft
  cases hs : u.state with
  | idle => exact absurd hs hHeader.1
  | hdr => exact absurd hs hHeader.2
  | checksum =>
    have := h.inv.checksum hs
    simp only [hs] at hLeft
    omega
  | msgid | offset | payload =>
    simp only [hs] at hLeft
    omega
  | eot => rfl

/-- In `CHECKSUM` the second byte is the last of the frame. -/
theorem SdUnit.Follows.last_byte (h : u.Follows delim f (b :: bs))
    (hOk : decodeFrame f time = .ok msg) (hs : u.state = .checksum) (hc : u.cnt.toNat ≠ 0) :
    bs = [] := by
  have hLeft := h.bytesLeft hOk (headerComplete_of_last (.inl hs))
  rw [bytesLeft_of_kept h.inv hs hc, List.length_cons] at hLeft
  exact List.length_eq_zero_iff.mp (by omega)

/-- Before the end of the frame the unit does not reach `EOT`. -/
theorem SdUnit.Follows.not_eot (h : u.Follows delim f (b :: bs))
    (hOk : decodeFrame f time = .ok msg) : u.state ≠ .eot := by
  intro hs
  have hLeft := h.bytesLeft hOk (headerComplete_of_last (.inr hs))
  simp only [Machine.bytesLeft, hs, (h.inv.eot hs).1, List.length_cons] at hLeft
  simp [bit] at hLeft

/-- On the next byte of an accepted frame the unit reports no error: it reports nothing, or, at the
last byte in non-delimited mode, the message that `DEC` reads from the frame. -/
theorem SdStepCase.on_frame (h : SdStepCase delim now b u v m e) (hu : u.Follows delim f (b :: bs))
    (hOk : decodeFrame f time = .ok msg) :
    (m = none ∧ e = none) ∨
      (delim = false ∧ bs = [] ∧ v = SdUnit.reset ∧ e = none ∧
        ∃ msg', m = some msg' ∧ decodeFrame f now = .ok msg') := by
  cases h with
  | soh | noise | first | hdrMore | hdrLast | msgidMore | msgidLast | offsetMore | offsetLast
  | payloadMore | payloadLast | checksumLow | checksumGood => exact .inl ⟨rfl, rfl⟩
  | hdrNoId hs hc hn =>
    obtain ⟨-, -, hNamed, -⟩ := (decodeFrame_ok_iff f time msg).mp hOk
    have hHeader : headerAt f = (u.took .hdr b).header := by
      rw [← hu.received, SdUnit.received_eq_taken (by simp [hs]) (by simp [hs]),
        ← List.singleton_append, ← List.append_assoc, ← took_hdr_bytes hu.inv.buffers b hs hc]
      rfl
    exact absurd hn (hHeader ▸ hNamed)
  | checksumBad hs hc hk =>
    obtain rfl := hu.last_byte hOk hs hc
    obtain ⟨-, hSum, -⟩ := (decodeFrame_ok_iff f time msg).mp hOk
    have hFrame : f = u.taken ++ le16Bytes (le16 u.ck0 b) := by
      rw [← hu.received, SdUnit.received_kept hs hc, le16Bytes, lo8_le16, hi8_le16,
        List.append_assoc]
      rfl
    rw [hFrame, computedChecksum_append, receivedChecksum_append, ← hu.inv.folded] at hSum
    exact absurd hSum.symm hk
  | checksumEmit hs hc hk hd =>
    obtain rfl := hu.last_byte hOk hs hc
    refine .inr ⟨hd, rfl, rfl, rfl, _, rfl, ?_⟩
    rw [← hu.received, ← sealBody_taken hu.inv hs hc hk]
    exact decodeFrame_taken hu.inv (.inl hs) now
  | eotEmit hs | eotBad hs => exact absurd hs (hu.not_eot hOk)

/-- A step that reports nothing goes one byte further in the frame. -/
theorem SdStepCase.follows (h : SdStepCase delim now b u v none none)
    (hu : u.Follows delim f (b :: bs)) : v.Follows delim f bs := by
  have hInv := h.keeps_inv hu.inv
  have hReceived := h.receives hu.inv hu.started
  refine ⟨hInv, fun hs => ?_, ?_⟩
  · have hNil : v.received = [] := by rw [hInv.idle hs]; rfl
    simp [hNil] at hReceived
  · rw [hReceived, List.append_assoc]
    exact hu.received

/-- Every byte of an accepted frame that is not the one to report it is taken quietly. -/
theorem SdUnit.Follows.quiet_step (hu : u.Follows delim f (b :: bs))
    (hOk : decodeFrame f time = .ok msg) (hMore : delim = true ∨ bs ≠ []) (now : Nat) :
    ∃ v, sdStepUnit delim now b u = .ok (v, none, none) ∧ v.Follows delim f bs := by
  rcases sdStepUnit_cases delim now b u with ⟨-, v, m, e, hStep, hRow⟩ | ⟨hOut, -⟩
  · rcases hRow.on_frame hu hOk with ⟨rfl, rfl⟩ | ⟨hd, hLast, -⟩
    · exact ⟨v, hStep, hRow.follows hu⟩
    · rcases hMore with h | h
      · cases h.symm.trans hd
      · exact absurd hLast h
  · exact absurd hOut hu.inv.not_outside

/-- In non-delimited mode the last byte of an accepted frame is answered with its message. -/
theorem SdUnit.Follows.last_step (hu : u.Follows false f [b]) (hOk : decodeFrame f now = .ok msg) :
    sdStepUnit false now b u = .ok (SdUnit.reset, some msg, none) := by
  rcases sdStepUnit_cases false now b u with ⟨-, v, m, e, hStep, hRow⟩ | ⟨hOut, -⟩
  · rcases hRow.on_frame hu hOk with ⟨rfl, rfl⟩ | ⟨-, -, rfl, rfl, msg', rfl, hMsg⟩
    · have hv := hRow.follows hu
      exact absurd (hv.inv.eot (hv.at_end hOk)).1 (by decide)
    · cases hMsg.symm.trans hOk
      exact hStep
  · exact absurd hOut hu.inv.not_outside

/-- In delimited mode the whole of an accepted frame leads to `EOT`, and the end delimiter is
answered with the message. -/
theorem SdUnit.Follows.delimiter_step (hu : u.Follows true f [])
    (hOk : decodeFrame f now = .ok msg) :
    sdStepUnit true now eot u = .ok (SdUnit.reset, some msg, none) := by
  have hs := hu.at_end hOk
  have hFrame : f = sealBody u.taken := by
    rw [← hu.received, List.append_nil, SdUnit.received_eot hs]
  rw [hFrame, decodeFrame_taken hu.inv (.inr hs)] at hOk
  cases hOk
  exact sdStepUnit_eot_emits true now hs

end Follows

/-! ### Runs of `SD.STEP` -/

section Feed
variable {delim : Bool} {s : State} {b : Byte} {bs : List Byte} {c : Command} {cs : List Command}

/-- The first of the commands the host issued is taken and executed. -/
theorem runSteps_withCommands_cons {i : Instr} {t : State} (hWord : decode c.word = .ok i)
    (hNext : exec i (State.withCommands { s with ops := c.ops } cs) = .next t) (k : Nat) :
    runSteps (k + 1) (s.withCommands (c :: cs)) = runSteps k t := by
  have hStep : step (s.withCommands (c :: cs)) = .next t :=
    (step_command (rest := cs.map .command) rfl hWord).trans hNext
  rw [runSteps, hStep]

/-- The first of the bytes of a feed. -/
theorem runSteps_sdStep {v : SdUnit} {m : Option Msg} {e : Option BlockError}
    (hWord : c.word = encode (.sdStep b))
    (hStep : sdStepUnit s.delim c.ops.now b s.sd = .ok (v, m, e)) (k : Nat) :
    runSteps (k + 1) (s.withCommands (c :: cs)) = runSteps k
      (State.withCommands
        { s with sd := v, ops := c.ops, responses := s.responses ++ [.stream m e] } cs) :=
  runSteps_withCommands_cons (i := .sdStep b) (hWord ▸ decode_encode _)
    (execSdStep_next (s := State.withCommands { s with ops := c.ops } cs) hStep) k

/-- A feed on whose every byte the unit reports nothing, shown by a property of the unit and the
bytes still to come that each step keeps. -/
theorem runSteps_quietFeed {P : List Byte → SdUnit → Prop}
    (hStep : ∀ now b bs u, P (b :: bs) u →
      ∃ v, sdStepUnit delim now b u = .ok (v, none, none) ∧ P bs v)
    (hDelim : s.delim = delim) (hFeed : IsFeed cs bs) (hP : P bs s.sd) (more : List Command)
    (k : Nat) : ∃ u ops, P [] u ∧
      runSteps (bs.length + k) (s.withCommands (cs ++ more)) = runSteps k
        (State.withCommands { s with
          sd := u, ops := ops
          responses := s.responses ++ List.replicate bs.length (.stream none none) } more) := by
  induction bs generalizing s cs with
  | nil =>
    obtain rfl : cs = [] := List.map_eq_nil_iff.mp hFeed
    exact ⟨s.sd, s.ops, hP, by simp⟩
  | cons b bs ih =>
    obtain ⟨c, cs, rfl, hWord, hRest⟩ := List.map_eq_cons_iff.mp hFeed
    obtain ⟨v, hQuiet, hv⟩ := hStep c.ops.now b bs s.sd hP
    rw [← hDelim] at hQuiet
    obtain ⟨u, ops, hu, hRun⟩ := ih (s := { s with
      sd := v, ops := c.ops, responses := s.responses ++ [.stream none none] }) hDelim hRest hv
    refine ⟨u, ops, hu, ?_⟩
    rw [List.length_cons, Nat.add_right_comm, List.cons_append, runSteps_sdStep hWord hQuiet, hRun]
    simp [List.replicate_succ]

/-- The last byte of a feed and its time. -/
theorem IsFeed.concat {now : Nat} (hFeed : IsFeed cs (bs ++ [b])) (hNow : LastNow cs now) :
    ∃ cs' c, cs = cs' ++ [c] ∧ IsFeed cs' bs ∧ c.word = encode (.sdStep b) ∧ c.ops.now = now := by
  rw [IsFeed, List.map_append, List.map_eq_append_iff] at hFeed
  obtain ⟨cs', l, rfl, hBegin, hEnd⟩ := hFeed
  obtain ⟨c, l, rfl, hWord, hNil⟩ := List.map_eq_cons_iff.mp hEnd
  obtain rfl := List.map_eq_nil_iff.mp hNil
  exact ⟨cs', c, rfl, hBegin, hWord, by simpa [LastNow] using hNow⟩

/-- A feed on which the unit reports nothing until the last byte, and then a message. -/
theorem runSteps_feed_message {P : List Byte → SdUnit → Prop} {now : Nat} {msg : Msg}
    (hStep : ∀ now b bs u, P (b :: bs) u →
      ∃ v, sdStepUnit delim now b u = .ok (v, none, none) ∧ P bs v)
    (hLast : ∀ u, P [] u → sdStepUnit delim now b u = .ok (SdUnit.reset, some msg, none))
    (hDelim : s.delim = delim) (hFeed : IsFeed cs (bs ++ [b])) (hNow : LastNow cs now)
    (hP : P bs s.sd) :
    ∃ t, runSteps (bs.length + 1) (s.withCommands cs) = .next t ∧ t.sd = SdUnit.reset ∧
      t.crcAcc = s.crcAcc ∧ t.pending = [] ∧
      t.responses = s.responses ++ feedResponses (bs.length + 1) msg := by
  obtain ⟨cs, c, rfl, hBegin, hWord, rfl⟩ := IsFeed.concat hFeed hNow
  obtain ⟨u, ops, hu, hRun⟩ := runSteps_quietFeed hStep hDelim hBegin hP [c] 1
  have hEmit := hLast u hu
  rw [← hDelim] at hEmit
  exact ⟨_, hRun.trans (runSteps_sdStep hWord hEmit 0), rfl, rfl, rfl, List.append_assoc _ _ _⟩

end Feed

/-! ### The obligations -/

/-- Settles O49: outside a frame every byte but the start delimiter leaves the reset unit. -/
theorem noiseIsSkipped : Obligations.NoiseIsSkipped := by
  intro s cs bs hDelim hReset hFeed hNoise
  have hStep (now : Nat) (b : Byte) (bs : List Byte) (u : SdUnit) :
      (u = SdUnit.reset ∧ ∀ b' ∈ b :: bs, b' ≠ soh) →
      ∃ v, sdStepUnit true now b u = .ok (v, none, none) ∧
        v = SdUnit.reset ∧ ∀ b' ∈ bs, b' ≠ soh := by
    rintro ⟨rfl, hb⟩
    obtain ⟨hFirst, hRest⟩ := List.forall_mem_cons.mp hb
    exact ⟨_, (SdStepCase.noise rfl rfl hFirst).sdStepUnit_eq, rfl, hRest⟩
  obtain ⟨u, ops, ⟨rfl, -⟩, hRun⟩ := runSteps_quietFeed
    (P := fun bs u => u = SdUnit.reset ∧ ∀ b ∈ bs, b ≠ soh) hStep hDelim hFeed
    ⟨hReset, hNoise⟩ [] 0
  rw [List.append_nil] at hRun
  exact ⟨_, hRun, rfl, rfl, rfl⟩

/-- Settles O46: every byte but the last goes one byte further in the frame. -/
theorem streamingEqualsOneShotUndelimited : Obligations.StreamingEqualsOneShotUndelimited := by
  intro s cs f now m hDelim hReset hOk hFeed hNow
  obtain ⟨hLong, -⟩ := (decodeFrame_ok_iff f now m).mp hOk
  obtain rfl | ⟨bs, b, rfl⟩ := f.eq_nil_or_concat'
  · exact absurd hLong (by decide)
  rw [List.length_append]
  exact runSteps_feed_message (P := fun l u => u.Follows false (bs ++ [b]) (l ++ [b]))
    (fun now _ _ _ hu => hu.quiet_step hOk (.inr (by simp)) now) (fun _ hu => hu.last_step hOk)
    hDelim hFeed hNow (hReset ▸ ⟨SdUnit.reset_inv false, fun _ => rfl, rfl⟩)

/-- In delimited mode: the unit awaits the start delimiter and a whole frame, or is inside it. -/
def SdUnit.Awaits (f bs : List Byte) (u : SdUnit) : Prop :=
  (u = SdUnit.reset ∧ bs = soh :: f) ∨ u.Follows true f bs

theorem SdUnit.Awaits.quiet_step {f bs : List Byte} {b : Byte} {u : SdUnit} {time : Nat} {msg : Msg}
    (hu : u.Awaits f (b :: bs)) (hOk : decodeFrame f time = .ok msg) (now : Nat) :
    ∃ v, sdStepUnit true now b u = .ok (v, none, none) ∧ v.Awaits f bs := by
  rcases hu with ⟨rfl, hBytes⟩ | hu
  · cases hBytes
    have hRow := SdStepCase.soh (now := now) (u := SdUnit.reset) rfl rfl rfl
    exact ⟨_, hRow.sdStepUnit_eq, .inr ⟨hRow.keeps_inv (SdUnit.reset_inv true), nofun, rfl⟩⟩
  · obtain ⟨v, hStep, hv⟩ := hu.quiet_step hOk (.inl rfl) now
    exact ⟨v, hStep, .inr hv⟩

/-- Settles O47: the start delimiter and every byte of the frame, then the end delimiter. -/
theorem streamingEqualsOneShotDelimited : Obligations.StreamingEqualsOneShotDelimited := by
  intro s cs f now m hDelim hReset hOk hFeed hNow
  refine runSteps_feed_message (P := fun l u => u.Awaits f l)
    (fun now _ _ _ hu => hu.quiet_step hOk now) (fun u hu => ?_) hDelim hFeed hNow
    (.inl ⟨hReset, rfl⟩)
  rcases hu with ⟨-, hBytes⟩ | hu
  · cases hBytes
  · exact hu.delimiter_step hOk

/-- Settles O48: after `SD.RESET` the feed begins in the reset unit. -/
theorem resetMidFrameLeavesNoResidue : Obligations.ResetMidFrameLeavesNoResidue := by
  intro s c cs f now m hOk hWord hFeed hNow
  rw [runSteps_withCommands_cons hWord (exec_sdReset _)]
  have hLength := congrArg List.length hFeed
  rw [List.length_map, List.length_map] at hLength
  by_cases hDelim : s.delim = true
  · rw [if_pos hDelim] at hFeed hLength
    obtain ⟨t, hRun, hUnit, hAcc, -, hResp⟩ :=
      streamingEqualsOneShotDelimited { s with
        sd := SdUnit.reset, ops := c.ops, responses := s.responses ++ [.nothing] }
        cs f now m hDelim rfl hOk hFeed hNow
    rw [show cs.length = f.length + 2 by simpa using hLength]
    exact ⟨t, hRun, hUnit, hAcc, hResp⟩
  · rw [if_neg hDelim] at hFeed hLength
    obtain ⟨t, hRun, hUnit, hAcc, -, hResp⟩ := streamingEqualsOneShotUndelimited { s with
        sd := SdUnit.reset, ops := c.ops, responses := s.responses ++ [.nothing] } cs f now m
      (Bool.eq_false_of_not_eq_true hDelim) rfl hOk hFeed hNow
    rw [hLength]
    exact ⟨t, hRun, hUnit, hAcc, hResp⟩

end Sys2Proof.Machine
end

section
/-! Nothing the SD unit answers or becomes depends on a buffer byte that it has not written since
its last reset (10_state.md R35). -/

namespace Sys2Proof.Machine

theorem SameSoFar.refl (u : SdUnit) : SameSoFar u u := ⟨rfl, rfl, rfl, rfl, fun _ _ => rfl⟩

section SameUnit
variable {delim : Bool} {now : Nat} {b : Byte} {u u' v v' : SdUnit} {m : Option Msg}
  {e : Option BlockError}

theorem SameSoFar.received_eq (h : SameSoFar u u') : u.received = u'.received := by
  obtain ⟨hState, hCnt, -, hTaken, hKept⟩ := h
  by_cases hSum : u.state = .checksum ∧ u.cnt ≠ 0
  · simp only [SdUnit.received, ← hState, ← hCnt, ← hTaken, hKept hSum.1 hSum.2]
  · have hCond : ¬ (u.state = .checksum ∧ u.cnt.toNat ≠ 0) := fun hc =>
      hSum ⟨hc.1, fun hZero => hc.2 (congrArg BitVec.toNat hZero)⟩
    simp only [SdUnit.received, ← hState, ← hCnt, ← hTaken, if_neg hCond]

/-- Two units that have taken the same bytes have the same header, once it is complete. -/
theorem SameSoFar.header_eq (h : SameSoFar u u') (hHeader : u.HeaderComplete) :
    u.header = u'.header := by
  have hHeader' : u'.HeaderComplete := by
    have ⟨hState, _⟩ := h
    rw [headerComplete_iff, ← hState]
    exact (headerComplete_iff u).mp hHeader
  rw [← SdUnit.headerAt_received hHeader [], h.received_eq, SdUnit.headerAt_received hHeader']

theorem SameSoFar.took_eq (h : SameSoFar u u') (b : Byte) (sp : Space) :
    (u.took sp b).state = (u'.took sp b).state ∧ (u.took sp b).cnt = (u'.took sp b).cnt := by
  obtain ⟨hState, hCnt, -⟩ := h
  rw [SdUnit.took_state, SdUnit.took_state, SdUnit.took_cnt, SdUnit.took_cnt, hState, hCnt]
  exact ⟨rfl, rfl⟩

/-- Two units that have taken the same two header bytes come to the same header. -/
theorem SameSoFar.took_hdr_header (h : SameSoFar u u') (hInv : u.Inv delim) (hInv' : u'.Inv delim)
    (hs : u.state = .hdr) (hc : u.cnt.toNat = 2) (b : Byte) :
    (u.took .hdr b).header = (u'.took .hdr b).header := by
  obtain ⟨hState, hCnt, -, hTaken, -⟩ := h
  rw [header_eq_headerAt_bytes, took_hdr_bytes hInv.buffers b hs hc, hTaken,
    ← took_hdr_bytes hInv'.buffers b (hState ▸ hs) (hCnt ▸ hc)]
  rfl

/-- The same bytes taken give the same message, for it is the one that `DEC` reads from them. -/
theorem SameSoFar.sdMsg_eq (h : SameSoFar u u') (hInv : u.Inv delim) (hInv' : u'.Inv delim)
    (hs : u.state = .checksum ∨ u.state = .eot) (now : Nat) : sdMsg u now = sdMsg u' now := by
  have hOk := decodeFrame_taken hInv hs now
  obtain ⟨hState, -, -, hTaken, -⟩ := h
  rw [hTaken, decodeFrame_taken hInv' (hState ▸ hs)] at hOk
  exact (Except.ok.inj hOk).symm

/-- Two units that take the same byte have again taken the same. -/
theorem SdStepCase.sameSoFar_takes (h : SdStepCase delim now b u v none none)
    (h' : SdStepCase delim now b u' v' none none) (hSame : SameSoFar u u') (hInv : u.Inv delim)
    (hInv' : u'.Inv delim) (hIdle : u.state ≠ .idle) (hSum : u.state ≠ .checksum)
    (hState : v.state = v'.state) (hCnt : v.cnt = v'.cnt) : SameSoFar v v' := by
  obtain ⟨hState₀, -, hCrc₀, hTaken₀, -⟩ := hSame
  obtain ⟨hTaken, hCrc⟩ := h.takes hInv (absurd · hIdle) hSum
  obtain ⟨hTaken', hCrc'⟩ := h'.takes hInv' (absurd · (hState₀ ▸ hIdle)) (hState₀ ▸ hSum)
  refine ⟨hState, hCnt, ?_, ?_, fun hs hc => ?_⟩
  · rw [hCrc, hCrc', hCrc₀]
  · rw [hTaken, hTaken', hTaken₀]
  · exact absurd (BitVec.eq_of_toNat_eq ((h.takes_state hSum).2 hs)) hc

/-- Two units that have written the same take the same row of the table, and have again written the
same. -/
theorem SdStepCase.sameSoFar (h : SdStepCase delim now b u v m e) (hSame : SameSoFar u u')
    (hInv : u.Inv delim) (hInv' : u'.Inv delim) :
    ∃ v', SdStepCase delim now b u' v' m e ∧ SameSoFar v v' := by
  have ⟨hState, hCnt, hCrc, hTaken, hKept⟩ := hSame
  by_cases hIdle : u.state = .idle
  · have hEqual : u = u' := (hInv.idle hIdle).trans (hInv'.idle (hState ▸ hIdle)).symm
    exact ⟨v, hEqual ▸ h, .refl v⟩
  have hs' {st : SdState} (hs : u.state = st) : u'.state = st := hState ▸ hs
  have hHeader {st : SdState} (hs : u.state = st) (hst : st ≠ .idle ∧ st ≠ .hdr) :
      u.header = u'.header := hSame.header_eq (headerComplete_of_state hs hst)
  have hAfter {st : SdState} (hs : u.state = st) (hst : st ≠ .idle ∧ st ≠ .hdr) :
      afterOffset u = afterOffset u' := by simp only [afterOffset, hHeader hs hst]
  have hThird (hs : u.state = .hdr) (hc : u.cnt.toNat = 2) :
      (u.took .hdr b).header = (u'.took .hdr b).header :=
    hSame.took_hdr_header hInv hInv' hs hc b
  have hTakes {w w' : SdUnit} (hRow : SdStepCase delim now b u w none none)
      (hRow' : SdStepCase delim now b u' w' none none) (hSum : u.state ≠ .checksum)
      (hWhere : w.state = w'.state ∧ w.cnt = w'.cnt) :
      ∃ w', SdStepCase delim now b u' w' none none ∧ SameSoFar w w' :=
    ⟨w', hRow', hRow.sameSoFar_takes hRow' hSame hInv hInv' hIdle hSum hWhere.1 hWhere.2⟩
  have hk' (hs : u.state = .checksum) (hc : u.cnt.toNat ≠ 0) : u'.ck0 = u.ck0 :=
    (hKept hs fun hZero => hc (congrArg BitVec.toNat hZero)).symm
  cases h with
  | soh hs | noise hs | first hs => exact absurd hs hIdle
  | hdrMore hs hc =>
    exact hTakes (.hdrMore hs hc) (.hdrMore (hs' hs) (hCnt ▸ hc)) (by simp [hs])
      (hSame.took_eq b .hdr)
  | hdrNoId hs hc hn =>
    exact ⟨_, .hdrNoId (hs' hs) (hCnt ▸ hc) (hThird hs hc ▸ hn), .refl _⟩
  | hdrLast hs hc hn =>
    exact hTakes (.hdrLast hs hc hn) (.hdrLast (hs' hs) (hCnt ▸ hc) (hThird hs hc ▸ hn))
      (by simp [hs]) ⟨rfl, rfl⟩
  | msgidMore hs hc hn =>
    exact hTakes (.msgidMore hs hc hn)
      (.msgidMore (hs' hs) (hCnt ▸ hc) (hHeader hs (by decide) ▸ hCnt ▸ hn))
      (by simp [hs]) (hSame.took_eq b .id)
  | msgidLast hs hc hn =>
    refine hTakes (.msgidLast hs hc hn)
      (.msgidLast (hs' hs) (hCnt ▸ hc) (hHeader hs (by decide) ▸ hCnt ▸ hn))
      (by simp [hs]) ⟨?_, rfl⟩
    rw [enter_state, enter_state, hHeader hs (by decide), hAfter hs (by decide)]
  | offsetMore hs hc =>
    exact hTakes (.offsetMore hs hc) (.offsetMore (hs' hs) (hCnt ▸ hc)) (by simp [hs])
      (hSame.took_eq b .off)
  | offsetLast hs hc =>
    exact hTakes (.offsetLast hs hc) (.offsetLast (hs' hs) (hCnt ▸ hc)) (by simp [hs])
      ⟨hAfter hs (by decide), rfl⟩
  | payloadMore hs hc hm =>
    exact hTakes (.payloadMore hs hc hm)
      (.payloadMore (hs' hs) (hCnt ▸ hc) (hHeader hs (by decide) ▸ hCnt ▸ hm))
      (by simp [hs]) (hSame.took_eq b .pay)
  | payloadLast hs hc hm =>
    exact hTakes (.payloadLast hs hc hm)
      (.payloadLast (hs' hs) (hCnt ▸ hc) (hHeader hs (by decide) ▸ hCnt ▸ hm))
      (by simp [hs]) ⟨rfl, rfl⟩
  | checksumLow hs hc =>
    refine ⟨_, .checksumLow (hs' hs) (hCnt ▸ hc), hState, rfl, hCrc, ?_, fun _ _ => rfl⟩
    have hLow := SdUnit.taken_checksum hs (.inl hs) 1 b
    have hLow' := SdUnit.taken_checksum (hs' hs) (.inl (hs' hs)) 1 b
    exact (hLow.trans hTaken).trans hLow'.symm
  | checksumBad hs hc hk =>
    exact ⟨_, .checksumBad (hs' hs) (hCnt ▸ hc) (hk' hs hc ▸ hCrc ▸ hk), .refl _⟩
  | checksumGood hs hc hk hd =>
    refine ⟨_, .checksumGood (hs' hs) (hCnt ▸ hc) (hk' hs hc ▸ hCrc ▸ hk) hd, rfl, rfl, hCrc, ?_,
      nofun⟩
    have hGood := SdUnit.taken_checksum hs (.inr rfl) 0 u.ck0
    have hGood' := SdUnit.taken_checksum (hs' hs) (.inr rfl) 0 u'.ck0
    exact (hGood.trans hTaken).trans hGood'.symm
  | checksumEmit hs hc hk hd =>
    rw [hSame.sdMsg_eq hInv hInv' (.inl hs)]
    exact ⟨_, .checksumEmit (hs' hs) (hCnt ▸ hc) (hk' hs hc ▸ hCrc ▸ hk) hd, .refl _⟩
  | eotEmit hs hb =>
    rw [hSame.sdMsg_eq hInv hInv' (.inr hs)]
    exact ⟨_, .eotEmit (hs' hs) hb, .refl _⟩
  | eotBad hs hb => exact ⟨_, .eotBad (hs' hs) hb, .refl _⟩

end SameUnit

/-- Settles O51: the CODEC commands read their operands, the CRC16 unit its accumulator, and the SD
unit takes the same row of its table. -/
theorem outcomesIgnoreUnwrittenBytes : Obligations.OutcomesIgnoreUnwrittenBytes := by
  intro i s t hInv hInv' hAcc hDelim hOps hSame
  have hCodec (hi : i = .enc ∨ i = .encd ∨ i = .dec) : ∃ s' t' r, exec i s = .next s' ∧
      exec i t = .next t' ∧ s'.responses = s.responses ++ [r] ∧ t'.responses = t.responses ++ [r] ∧
      s'.crcAcc = t'.crcAcc ∧ SameSoFar s'.sd t'.sd := by
    obtain ⟨r, hs, ht⟩ := codecCommandsArePure i s t hi hOps
    exact ⟨_, _, r, hs, ht, rfl, rfl, hAcc, hSame⟩
  cases i with
  | enc => exact hCodec (.inl rfl)
  | encd => exact hCodec (.inr (.inl rfl))
  | dec => exact hCodec (.inr (.inr rfl))
  | crcReset => exact ⟨_, _, _, exec_crcReset s, exec_crcReset t, rfl, rfl, rfl, hSame⟩
  | crcStep b =>
    exact ⟨_, _, _, exec_crcStep s b, exec_crcStep t b, rfl, rfl,
      congrArg (crcStep · b) hAcc, hSame⟩
  | crcRead =>
    exact ⟨_, _, _, exec_crcRead s, exec_crcRead t, rfl, by rw [hAcc]; rfl, hAcc, hSame⟩
  | sdReset => exact ⟨_, _, _, exec_sdReset s, exec_sdReset t, rfl, rfl, hAcc, .refl _⟩
  | sdStep b =>
    obtain ⟨s', hNext⟩ := exec_answers hInv (.sdStep b)
    obtain ⟨m, e, hRow, hOnly⟩ := exec_sdStep_answers hNext
    obtain ⟨v', hRow', hSame'⟩ := hRow.sameSoFar hSame hInv (hDelim ▸ hInv')
    rw [hDelim, hOps] at hRow'
    refine ⟨s', _, .stream m e, hNext, execSdStep_next hRow'.sdStepUnit_eq, ?_, rfl, ?_, hSame'⟩
    · rw [hOnly]
    · rw [hOnly]
      exact hAcc

end Sys2Proof.Machine
end
